-- ==== Sys2Proof/Word.lean ====
section
/-! DEFINITION. The fixed widths of the block (00_scope.md R7, R8). None of them is a parameter. -/

namespace Sys2Proof

/-- A byte of a byte string. -/
abbrev Byte := BitVec 8

/-- A word of the host bus (R8). -/
abbrev Word := BitVec 32

/-- A byte offset into the 4 KiB register window (R8). -/
abbrev Offset := BitVec 12

/-- The algorithm's 64-bit unit: A, R[i] and the IV (R7, R16). -/
abbrev Block := BitVec 64

/-- A 16-byte AES cipher block, formed as A ‖ R[i] (R7). -/
abbrev Cipher := BitVec 128

/-- The 256-bit key port value (R68). -/
abbrev Key := BitVec 256

end Sys2Proof
end

