-- ==== Sys2Proof/Config.lean ====
section
/-! DEFINITION. What is fixed for one instance, and the values the spec leaves to the platform or
to the external AES core (00_scope.md R6, R9; 92_eei_decisions.md section 2). -/

namespace Sys2Proof.Config

/-- DEFAULT_IV (R13). -/
def defaultIv : Block := 0xA6A6A6A6A6A6A6A6#64

/-- N_MAX of the reference configuration (R6). DESIGN CHOICE, log 3: the machine's own N_MAX is the
`nmax` field of State, and statements are about every value 2..63. -/
def nMaxReference : BitVec 6 := 32#6

/-- The cipher of the external AES core for the key lengths 0, 1 and 2, as a permutation of the
blocks for each key: free, except that decryption inverts encryption (R124 (b)). It is applied to
the used key bytes only (`usedKey`, R121). DEDUCED, log 4. -/
opaque aesPermutation : BitVec 2 → Key → Equiv.Perm Cipher

/-- What the core would answer for kl = 3, which is never sent (R124 (d)): wholly free. Log 4. -/
opaque aesEncReserved : Key → Cipher → Cipher

/-- What the core would answer for kl = 3, which is never sent (R124 (d)): wholly free. Log 4. -/
opaque aesDecReserved : Key → Cipher → Cipher

/-- The 4 KiB page of the host's address space in which the platform places the window (R115, D5):
left free. Log 15. -/
opaque aeskwPage : Nat

/-- AESKW_BASE, the host address of the window, aligned to 4 KiB (20_memory.md R115). -/
def aeskwBase : Nat := 0x1000 * aeskwPage

/-- AESKW_IRQ_ROUTE, the host's interrupt input that irq drives (60_exceptions.md R410): left free.
Log 15. -/
opaque aeskwIrqRoute : Nat

end Sys2Proof.Config
end

