-- ==== Sys2Proof/Syntax.lean ====
section
/-! DEFINITION. The block's input languages: the commands of the opcode table (30_encoding.md R151),
the host bus transactions (R157), and the host-script notation (R162, R163). -/

namespace Sys2Proof

/-- The commands, one constructor per row of spec/opcode_table.json. `ivsel` is CMD[8] (R150):
false selects DEFAULT_IV, true the IV register. For CLEAR the bit has no effect on the outcome
(R152, R320), but acceptance latches IVE from it like for any command (R201); log 7. -/
inductive Instr
  /-- WRAP, OP 0x1 (R250). -/
  | wrap (ivsel : Bool)
  /-- UNWRAP, OP 0x2 (R280). -/
  | unwrap (ivsel : Bool)
  /-- UNWRAP_STRICT, OP 0x3 (R290). -/
  | unwrapStrict (ivsel : Bool)
  /-- CLEAR, OP 0x4 (R320). -/
  | clear (ivsel : Bool)
  deriving DecidableEq, Repr

/-- The host-visible registers of the window (10_state.md R33). -/
inductive Reg
  | hwcfg
  | config
  | cmd
  | status
  | irqEnable
  | irqStatus
  | round
  | ivHi
  | ivLo
  | kek (k : Fin 8)
  | whi (j : Nat)
  | wlo (j : Nat)
  deriving DecidableEq, Repr

/-- The width of a bus access (R157). -/
inductive Width
  | w8
  | w16
  | w32
  deriving DecidableEq, Repr

/-- A host bus transaction (R157): a read, or a write with its data. -/
inductive BusTxn
  | rd (addr : Offset) (width : Width)
  | wr (addr : Offset) (width : Width) (wdata : Word)
  deriving DecidableEq, Repr

/-- The key lengths the CFG pseudo-instruction names (R163). -/
inductive KeyBits
  | k128
  | k192
  | k256
  deriving DecidableEq, Repr

/-- A line of a host script: a transaction on a named register (R162) or a pseudo-instruction
(R163). WAITIDLE is unbounded in the spec: `reads` is how many times STATUS happens to be read. -/
inductive ScriptLine
  | wr (r : Reg) (v : Word)
  | rd (r : Reg)
  | cfg (kl : KeyBits) (n : Nat)
  | ldkek (bytes : List Byte)
  | wr64W (j : Nat) (v : Block)
  | wr64Iv (v : Block)
  | rd64W (j : Nat)
  | command (i : Instr)
  | waitIdle (reads : Nat)
  | ack (bits : Word)
  deriving DecidableEq, Repr

end Sys2Proof
end

