-- ==== Sys2Proof/WellFormed.lean ====
section
/-! DEFINITION. Which terms of the input languages the spec gives a form. Ill-formed bus
transactions are still meaningful (an ERROR response, 20_memory.md R103); ill-formed script lines
have no expansion in the notation. -/

namespace Sys2Proof

/-- A command has one operand, the bit IVSEL, and both its values are encodable with every opcode
(30_encoding.md R150, R152): every term is well formed. -/
def Instr.wellFormed : Instr → Bool
  | .wrap _ => true
  | .unwrap _ => true
  | .unwrapStrict _ => true
  | .clear _ => true

/-- The registers the window holds for this N_MAX (10_state.md R33, R50). -/
def Reg.wellFormed (nmax : Nat) : Reg → Bool
  | .whi j => decide (j ≤ nmax)
  | .wlo j => decide (j ≤ nmax)
  | .hwcfg | .config | .cmd | .status | .irqEnable | .irqStatus | .round | .ivHi | .ivLo
  | .kek _ => true

/-- The accesses that are performed: 32 bits wide and aligned (20_memory.md R103). -/
def BusTxn.wellFormed : BusTxn → Bool
  | .rd addr width => decide (width = .w32) && decide (addr.extractLsb' 0 2 = 0#2)
  | .wr addr width _ => decide (width = .w32) && decide (addr.extractLsb' 0 2 = 0#2)

/-- The lines the host-script notation has (30_encoding.md R162, R163): registers that exist, an n
that fits CONFIG.N, a KEK of 16, 24 or 32 bytes. -/
def ScriptLine.wellFormed (nmax : Nat) : ScriptLine → Bool
  | .wr r _ => r.wellFormed nmax
  | .rd r => r.wellFormed nmax
  | .cfg _ n => decide (n ≤ 63)
  | .ldkek bytes => decide (bytes.length = 16) || decide (bytes.length = 24) || decide (bytes.length = 32)
  | .wr64W j _ => decide (j ≤ nmax)
  | .wr64Iv _ => true
  | .rd64W j => decide (j ≤ nmax)
  | .command i => i.wellFormed
  | .waitIdle reads => decide (1 ≤ reads)
  | .ack _ => true

end Sys2Proof
end

