-- ==== Sys2Proof/Decode.lean ====
section
/-! DEFINITION. From a CMD word to a command, and back (30_encoding.md R150, R151, R153, R160). -/

namespace Sys2Proof

/-- Why a CMD word is no command of the opcode table. The machine itself accepts such a word and
completes it with ILLEGAL_CMD (43_maintenance.md R325). -/
inductive DecodeError
  /-- OP is 0x0 or 0x5 to 0xF (R160). -/
  | illegalOpcode (op : BitVec 4)
  deriving DecidableEq, Repr

/-- CMD[3:0], OP (R150). -/
def cmdOp (w : Word) : BitVec 4 := w.extractLsb' 0 4

/-- CMD[8], IVSEL (R150). -/
def cmdIvsel (w : Word) : Bool := w.getLsbD 8

/-- The opcode map (R151). -/
def decodeOp (op : BitVec 4) (ivsel : Bool) : Except DecodeError Instr :=
  if op = 0x1#4 then .ok (.wrap ivsel)
  else if op = 0x2#4 then .ok (.unwrap ivsel)
  else if op = 0x3#4 then .ok (.unwrapStrict ivsel)
  else if op = 0x4#4 then .ok (.clear ivsel)
  else .error (.illegalOpcode op)

/-- The command a CMD word stands for. CMD[7:4] and CMD[31:9] are ignored (R153). -/
def decode (w : Word) : Except DecodeError Instr := decodeOp (cmdOp w) (cmdIvsel w)

/-- OP of a command (R151). -/
def Instr.opcode : Instr → BitVec 4
  | .wrap _ => 0x1#4
  | .unwrap _ => 0x2#4
  | .unwrapStrict _ => 0x3#4
  | .clear _ => 0x4#4

/-- IVSEL of a command (R150). -/
def Instr.ivsel : Instr → Bool
  | .wrap b => b
  | .unwrap b => b
  | .unwrapStrict b => b
  | .clear b => b

/-- The CMD word of a command, its ignored bits written 0 as R153 advises. -/
def encode (i : Instr) : Word :=
  (0#23 ++ BitVec.ofBool i.ivsel ++ 0#4 ++ i.opcode : BitVec 32)

/-- The command of the word `w` of `nbits` bits, in the numbering of spec/opcode_table.json: a
command is one 32-bit word (R161), written to CMD whole, so its bits are the word's own. -/
def decodeTableWord (nbits w : Nat) : Option Instr :=
  match decode (BitVec.ofNat 32 (w % 2 ^ nbits)) with
  | .ok i => some i
  | .error _ => none

end Sys2Proof
end

