-- ==== Sys2Proof/Machine/State.lean ====
section
/-! DEFINITION. The block's state, as plain data (10_state.md), with its reset values (R75). -/

namespace Sys2Proof.Machine

open Sys2Proof

/-- PHASE, the controller's sequencing state (10_state.md R62). -/
inductive Phase
  /-- IDLE: no command. -/
  | idle
  /-- START: accepted, not yet validated. -/
  | start
  /-- ISSUE: an AES request is to be sent for the current round. -/
  | issue
  /-- WAIT: one AES request is outstanding. -/
  | wait
  /-- FINISH: all AES calls are done. -/
  | finish
  deriving DecidableEq, Repr

/-- The result codes of STATUS.CODE (30_encoding.md R156); the values 7 to 15 are never produced. -/
inductive ResultCode
  | none
  | ok
  | absent
  | unwrapFailed
  | badKeylen
  | badLength
  | illegalCmd
  deriving DecidableEq, Repr

/-- The direction of an AES request (10_state.md R64). -/
inductive Dir
  | enc
  | dec
  deriving DecidableEq, Repr

/-- An AES request (10_state.md R64; 20_memory.md R120). -/
structure AesReq where
  dir : Dir
  kl : BitVec 2
  key : Key
  blk : Cipher
  deriving DecidableEq, Repr

/-- The bus response code (30_encoding.md R157). -/
inductive Resp
  | okay
  | error
  deriving DecidableEq, Repr

/-- What a transaction returns (30_encoding.md R157). A write returns no data (log 10). -/
structure BusRsp where
  rdata : Option Word
  resp : Resp
  deriving DecidableEq, Repr

/-- A turn of one agent or of the environment (00_scope.md R15). The list of turns is the
interleaving (20_memory.md R110), as data. Log 1. -/
inductive Turn
  /-- The Host performs one bus transaction. -/
  | host (t : BusTxn)
  /-- The Controller takes its enabled step, if it has one (log 9). -/
  | controller
  /-- The AES core answers the outstanding request, if there is one (40_carousel.md R221). -/
  | aesCore
  /-- A response with any content is presented on the AES port (20_memory.md R123, R126; log 8). -/
  | portResponse (blk : Cipher)
  /-- The reset input (70_reset_and_hazards.md R450). -/
  | reset
  deriving DecidableEq, Repr

/-- The data buffer: (window offset, byte) pairs, the offsets strictly rising, no byte 0. An
unlisted offset reads 0, the reset contents (10_state.md R50). Log 11. -/
abbrev Memory := List Host.Cell

/-- The block's state (10_state.md R31, R72), and after it the interface's and the model's own
fields (INVENTORY.md, State). -/
structure State where
  /-- HWCFG.NMAX, the parameter N_MAX (R34, R6). -/
  nmax : BitVec 6
  /-- CONFIG.KEYLEN (R35). -/
  keylen : BitVec 2
  /-- CONFIG.N (R35). -/
  n : BitVec 6
  /-- STATUS.VALID (R37). -/
  valid : Bool
  /-- STATUS.CODE (R37). -/
  code : ResultCode
  /-- IRQ_ENABLE[2:0] (R38). -/
  irqEnable : BitVec 3
  /-- IRQ_STATUS[2:0], DROP ‖ ERR ‖ DONE (R39). -/
  irqStatus : BitVec 3
  /-- IV_HI ‖ IV_LO (R41). -/
  iv : Block
  /-- KEK0 ‖ … ‖ KEK7 (R42, R68). -/
  kek : Key
  /-- The data buffer W (R50). -/
  mem : Memory
  /-- The integrity register A (R60). -/
  a : Block
  /-- The round counter T (R61). -/
  t : BitVec 64
  /-- PHASE (R62). -/
  phase : Phase
  /-- OPL, the latched opcode (R63). -/
  opl : BitVec 4
  /-- NL, the latched n (R63). -/
  nl : BitVec 6
  /-- KLL, the latched key length (R63). -/
  kll : BitVec 2
  /-- IVE, the effective IV (R63). -/
  ive : Block
  /-- REQ, the outstanding AES request (R64). -/
  req : Option AesReq
  /-- The AES port's response inputs during a response step (20_memory.md R120). Log 8. -/
  aesRsp : Option Cipher
  /-- What the latest host transaction returned (30_encoding.md R157). Log 10. -/
  busRsp : Option BusRsp
  /-- The turns still to come, first first (20_memory.md R110). Log 1. -/
  schedule : List Turn
  /-- The premise AES_CORE_LIVE (20_memory.md R125), for the time after the schedule. Log 2. -/
  coreLive : Bool
  deriving DecidableEq, Repr

/-- Why the machine stops. -/
inductive Fault
  /-- PHASE is past START with an opcode that R210 never sends there (CLEAR or an illegal one).
  Raised by `execClear` and by the step of an illegal command; no run reaches it. Safe: the machine
  stops where the spec gives nothing. Log 12. -/
  | deadPosition
  deriving DecidableEq, Repr

/-- Why a meaning is withheld. -/
inductive Refusal
  /-- An instruction that has no meaning yet, by its mnemonic. Raised by `exec` only; no arm of this
  model raises it. Safe. -/
  | notModelled (mnemonic : String)
  deriving DecidableEq, Repr

/-- What a step answers. -/
abbrev Outcome := Host.Outcome State Fault Refusal

/-- The reset state of an instance with the given N_MAX (10_state.md R75). -/
def State.resetFor (nmax : BitVec 6) : State where
  nmax := nmax
  keylen := 0
  n := 0
  valid := false
  code := .none
  irqEnable := 0
  irqStatus := 0
  iv := Config.defaultIv
  kek := 0
  mem := []
  a := 0
  t := 0
  phase := .idle
  opl := 0
  nl := 0
  kll := 0
  ive := 0
  req := .none
  aesRsp := .none
  busRsp := .none
  schedule := []
  coreLive := true

/-- The machine right after reset: the reference instance (R6, R75, R452). -/
def State.reset : State := State.resetFor Config.nMaxReference

end Sys2Proof.Machine
end

