-- ==== Sys2Proof/Machine/Flags.lean ====
section
/-! DEFINITION. The status flags and the interrupt (10_state.md R37, R39, R69, R71;
30_encoding.md R155, R156; 60_exceptions.md R402, R410). -/

namespace Sys2Proof.Machine

open Sys2Proof

/-- The 4-bit encoding of a result code (R156). -/
def ResultCode.bits : ResultCode → BitVec 4
  | .none => 0#4
  | .ok => 1#4
  | .absent => 2#4
  | .unwrapFailed => 3#4
  | .badKeylen => 4#4
  | .badLength => 5#4
  | .illegalCmd => 6#4

/-- The error-class codes (R402): these set ERR at completion. -/
def ResultCode.isError : ResultCode → Bool
  | .unwrapFailed | .badKeylen | .badLength | .illegalCmd => true
  | .none | .ok | .absent => false

/-- STATUS.BUSY, derived from PHASE (R37). -/
def State.busy (s : State) : Bool := decide (s.phase ≠ .idle)

/-- IRQ_STATUS.DONE (R39). -/
def State.irqDone (s : State) : Bool := s.irqStatus.getLsbD 0

/-- IRQ_STATUS.ERR (R39). -/
def State.irqErr (s : State) : Bool := s.irqStatus.getLsbD 1

/-- IRQ_STATUS.DROP (R39). -/
def State.irqDrop (s : State) : Bool := s.irqStatus.getLsbD 2

/-- The STATUS word (R155): BUSY in bit 0, VALID in bit 1, CODE in bits [7:4]. -/
def statusWord (s : State) : Word :=
  (0#24 ++ s.code.bits ++ 0#2 ++ BitVec.ofBool s.valid ++ BitVec.ofBool s.busy : BitVec 32)

/-- IRQ_STATUS after a completion (40_carousel.md R230): DONE set, and ERR for an error-class code;
bits already set stay set. -/
def completionIrq (code : ResultCode) (irqStatus : BitVec 3) : BitVec 3 :=
  irqStatus ||| (if code.isError then 0b011#3 else 0b001#3)

/-- IRQ_STATUS after a dropped write (20_memory.md R106). -/
def dropIrq (irqStatus : BitVec 3) : BitVec 3 := irqStatus ||| 0b100#3

/-- IRQ_STATUS after the host wrote `v` to it: each bit written 1 is cleared (R39). -/
def acknowledgeIrq (v : Word) (irqStatus : BitVec 3) : BitVec 3 :=
  irqStatus &&& ~~~(v.extractLsb' 0 3)

/-- The interrupt output (R69, R410): some pending source is enabled. -/
def State.irq (s : State) : Bool := decide (s.irqStatus &&& s.irqEnable ≠ 0#3)

/-- The level the block puts on an interrupt input of the platform (R410): irq on the input it is
routed to, nothing on any other. Log 15. -/
def State.irqAt (s : State) (input : Nat) : Bool := decide (input = Config.aeskwIrqRoute) && s.irq

end Sys2Proof.Machine
end

