-- ==== Sys2Proof/Machine/Operands.lean ====
section
/-! DEFINITION. The operand forms: register offsets (10_state.md R33), the words of the registers,
the assembly of a command's operands (30_encoding.md R158), and what goes through the AES port
(20_memory.md R121, R122, R124). -/

namespace Sys2Proof.Machine

open Sys2Proof

/-! ### Register offsets -/

/-- The window offset of slot j of the data buffer, that is of WHI_j (R50). -/
def slotOffset (j : Nat) : Nat := 0x100 + 8 * j

/-- The window offset of a register (R33). -/
def regOffset : Reg → Nat
  | .hwcfg => 0x000
  | .config => 0x004
  | .cmd => 0x008
  | .status => 0x00C
  | .irqEnable => 0x010
  | .irqStatus => 0x014
  | .round => 0x018
  | .ivHi => 0x020
  | .ivLo => 0x024
  | .kek k => 0x040 + 4 * k.val
  | .whi j => slotOffset j
  | .wlo j => slotOffset j + 4

/-- The data-buffer register at offset `a`, 0x100 or above (R33, R50). -/
def bufferRegAt (nmax a : Nat) : Option Reg :=
  if (a - 0x100) / 8 ≤ nmax then
    some (if (a - 0x100) % 8 < 4 then .whi ((a - 0x100) / 8) else .wlo ((a - 0x100) / 8))
  else none

/-- The register at an aligned offset; none for a reserved offset (R33; 20_memory.md R107). -/
def regAt (nmax a : Nat) : Option Reg :=
  if 0x100 ≤ a then bufferRegAt nmax a
  else if 0x040 ≤ a ∧ a < 0x060 then some (.kek (Fin.ofNat 8 ((a - 0x040) / 4)))
  else if a = 0x000 then some .hwcfg
  else if a = 0x004 then some .config
  else if a = 0x008 then some .cmd
  else if a = 0x00C then some .status
  else if a = 0x010 then some .irqEnable
  else if a = 0x014 then some .irqStatus
  else if a = 0x018 then some .round
  else if a = 0x020 then some .ivHi
  else if a = 0x024 then some .ivLo
  else none

/-- The register a performed transaction at `addr` reaches (R33). -/
def State.regAt (s : State) (addr : Offset) : Option Reg := Machine.regAt s.nmax.toNat addr.toNat

/-- Whether an access is performed: 32 bits wide, at a multiple of 4 (20_memory.md R103). -/
def performed (addr : Offset) (width : Width) : Bool :=
  decide (width = .w32) && decide (addr.extractLsb' 0 2 = 0#2)

/-- The host's byte address of a window offset (20_memory.md R115). -/
def hostAddress (addr : Offset) : Nat := Config.aeskwBase + addr.toNat

/-! ### Register words -/

/-- The HWCFG word (R34). -/
def hwcfgWord (s : State) : Word := s.nmax.setWidth 32

/-- The CONFIG word (R35; 30_encoding.md R154): reserved bits read 0. -/
def configWord (s : State) : Word := (0#18 ++ s.n ++ 0#6 ++ s.keylen : BitVec 32)

/-- CONFIG.KEYLEN of a written word (R154). -/
def configKeylen (v : Word) : BitVec 2 := v.extractLsb' 0 2

/-- CONFIG.N of a written word (R154). -/
def configN (v : Word) : BitVec 6 := v.extractLsb' 8 6

/-- The ROUND word, T[31:0] (R40). -/
def roundWord (s : State) : Word := s.t.extractLsb' 0 32

/-- Bits [63:32] of a 64-bit register (20_memory.md R101). -/
def hiWord (v : Block) : Word := v.extractLsb' 32 32

/-- Bits [31:0] of a 64-bit register (20_memory.md R101). -/
def loWord (v : Block) : Word := v.extractLsb' 0 32

/-- `V[63:32] <- w` (20_memory.md R106). -/
def setHiWord (v : Block) (w : Word) : Block := w ++ loWord v

/-- `V[31:0] <- w` (20_memory.md R106). -/
def setLoWord (v : Block) (w : Word) : Block := hiWord v ++ w

/-- The lowest bit of KEKk in KEK (R42). -/
def kekLow (k : Fin 8) : Nat := 224 - 32 * k.val

/-- `KEK[255-32k : 224-32k] <- w` (R42). -/
def setKekWord (k : Fin 8) (w : Word) (kek : Key) : Key :=
  (kek &&& ~~~((0xFFFFFFFF#256) <<< kekLow k)) ||| (w.setWidth 256 <<< kekLow k)

/-- KEKk of KEK (R158). No bus access reads it (R42). -/
def kekWord (k : Fin 8) (kek : Key) : Word := kek.extractLsb' (kekLow k) 32

/-! ### Operands of a command -/

/-- kb, the bytes of the KEK that are used, for a key length below 3 (30_encoding.md R158, R159). -/
def keyBytes (kl : BitVec 2) : Nat := 16 + 8 * kl.toNat

/-- The bytes of the plaintext key, in W[1..n] (30_encoding.md R159). -/
def plaintextBytes (n : BitVec 6) : Nat := 8 * n.toNat

/-- The bytes of the wrapped key, in W[0..n] (30_encoding.md R159). -/
def wrappedBytes (n : BitVec 6) : Nat := 8 * (n.toNat + 1)

/-- The effective IV that acceptance latches (40_carousel.md R201; 30_encoding.md R152). -/
def effectiveIv (ivsel : Bool) (s : State) : Block := if ivsel then s.iv else Config.defaultIv

/-- The last round number of the general path, 6·NL (40_carousel.md R235). -/
def lastRound (nl : BitVec 6) : Nat := 6 * nl.toNat

/-- The carousel index of round t over n blocks, ((t - 1) mod n) + 1 (00_scope.md R13). -/
def carouselIndex (t n : Nat) : Nat := (t - 1) % n + 1

/-- The block the current round visits (40_carousel.md R220): 1 on the n = 1 path, else i(T, NL). -/
def State.roundIndex (s : State) : Nat :=
  if s.nl = 1#6 then 1 else carouselIndex s.t.toNat s.nl.toNat

/-- MSB64 of a cipher block (00_scope.md R11). -/
def msb64 (b : Cipher) : Block := b.extractLsb' 64 64

/-- LSB64 of a cipher block (00_scope.md R11). -/
def lsb64 (b : Cipher) : Block := b.extractLsb' 0 64

/-! ### The AES port -/

/-- The key bytes the core uses, the first 16, 24 or 32; the remaining bits 0 (20_memory.md R121). -/
def usedKey (kl : BitVec 2) (key : Key) : Key :=
  if kl = 0#2 then (key.extractLsb' 128 128 ++ 0#128 : BitVec 256)
  else if kl = 1#2 then (key.extractLsb' 64 192 ++ 0#64 : BitVec 256)
  else key

/-- AES_Enc (00_scope.md R9): uninterpreted, with the properties (b) and (c) of 20_memory.md R124. -/
def aesEnc (kl : BitVec 2) (key : Key) (blk : Cipher) : Cipher :=
  if kl = 3#2 then Config.aesEncReserved key blk
  else Config.aesPermutation kl (usedKey kl key) blk

/-- AES_Dec (00_scope.md R9): uninterpreted, with the properties (b) and (c) of 20_memory.md R124. -/
def aesDec (kl : BitVec 2) (key : Key) (blk : Cipher) : Cipher :=
  if kl = 3#2 then Config.aesDecReserved key blk
  else (Config.aesPermutation kl (usedKey kl key)).symm blk

/-- The answer of a conforming core to a request (40_carousel.md R221). -/
def coreAnswer (r : AesReq) : Cipher :=
  match r.dir with
  | .enc => aesEnc r.kl r.key r.blk
  | .dec => aesDec r.kl r.key r.blk

end Sys2Proof.Machine
end

