-- ==== Sys2Proof/Machine/Ops.lean ====
section
/-! DEFINITION. The shared operations: the data buffer (10_state.md R50; 20_memory.md R101),
acceptance (40_carousel.md R201), completion (R230), which is the block's analogue of taking an
exception (60_exceptions.md R415), the acknowledgement, its analogue of a return (R416), dropping a
write (20_memory.md R106) and reset (70_reset_and_hazards.md R450). -/

namespace Sys2Proof.Machine

open Sys2Proof

/-! ### The data buffer -/

/-- What an unlisted offset reads as: the reset contents (10_state.md R50). -/
def Memory.blank : Byte := 0#8

/-- The byte at an offset. -/
def Memory.readByte : Memory → Nat → Byte
  | [], _ => Memory.blank
  | c :: m, x => if c.1 = x then c.2 else Memory.readByte m x

/-- The buffer without an entry for the offset. -/
def Memory.erase (m : Memory) (x : Nat) : Memory := m.filter (fun c => decide (c.1 ≠ x))

/-- A new entry, put before the first entry of a higher offset. -/
def Memory.insert (x : Nat) (b : Byte) : Memory → Memory
  | [] => [(x, b)]
  | c :: m => if x < c.1 then (x, b) :: c :: m else c :: Memory.insert x b m

/-- Writing a byte: the old entry goes, and a new one comes unless the byte is what an unlisted
offset reads as. -/
def Memory.writeByte (m : Memory) (x : Nat) (b : Byte) : Memory :=
  if b = Memory.blank then Memory.erase m x else Memory.insert x b (Memory.erase m x)

/-- The canonical form: offsets strictly rising, no entry equal to what an unlisted offset reads
as. -/
def Memory.wf (m : Memory) : Bool :=
  decide (m.Pairwise (fun c d => c.1 < d.1)) && m.all (fun c => decide (c.2 ≠ Memory.blank))

/-- The 32-bit word at an offset, big-endian (20_memory.md R101). -/
def Memory.readWord (m : Memory) (x : Nat) : Word :=
  (Memory.readByte m x ++ Memory.readByte m (x + 1) ++ Memory.readByte m (x + 2)
    ++ Memory.readByte m (x + 3) : BitVec 32)

/-- Writing the 32-bit word at an offset, big-endian (20_memory.md R101). -/
def Memory.writeWord (m : Memory) (x : Nat) (v : Word) : Memory :=
  Memory.writeByte (Memory.writeByte (Memory.writeByte (Memory.writeByte m
    x (v.extractLsb' 24 8)) (x + 1) (v.extractLsb' 16 8)) (x + 2) (v.extractLsb' 8 8))
    (x + 3) (v.extractLsb' 0 8)

/-- `W[j]` = WHI_j ‖ WLO_j (10_state.md R50; 30_encoding.md R158). -/
def Memory.slot (m : Memory) (j : Nat) : Block :=
  Memory.readWord m (slotOffset j) ++ Memory.readWord m (slotOffset j + 4)

/-- `W[j] <- v` (00_scope.md R13). -/
def Memory.setSlot (m : Memory) (j : Nat) (v : Block) : Memory :=
  Memory.writeWord (Memory.writeWord m (slotOffset j) (hiWord v)) (slotOffset j + 4) (loWord v)

/-- Whether an offset lies in the data buffer of N_MAX + 1 slots (10_state.md R50). -/
def inBuffer (nmax x : Nat) : Bool := decide (slotOffset 0 ≤ x) && decide (x < slotOffset (nmax + 1))

/-- `W[j] <- 0` for every j in 0..N_MAX (42_unwrap.md R286; 43_maintenance.md R320). -/
def Memory.scrub (nmax : Nat) (m : Memory) : Memory := m.filter (fun c => !inBuffer nmax c.1)

/-- `W[j]` of the block. -/
def State.w (s : State) (j : Nat) : Block := Memory.slot s.mem j

/-- `W[j] <- v`. -/
def State.setW (s : State) (j : Nat) (v : Block) : State := { s with mem := Memory.setSlot s.mem j v }

/-- `scrub()` (42_unwrap.md R286). -/
def State.scrub (s : State) : State := { s with mem := Memory.scrub s.nmax.toNat s.mem }

/-! ### Acceptance and completion -/

/-- `accept(v)` (40_carousel.md R201), with OP and IVSEL of the CMD word v: latch the command, its
configuration and the effective IV, clear VALID, enter START. -/
def accept (op : BitVec 4) (ivsel : Bool) (s : State) : State :=
  { s with
    opl := op
    nl := s.n
    kll := s.keylen
    ive := effectiveIv ivsel s
    valid := false
    phase := .start }

/-- `complete(code, valid)` (40_carousel.md R230): post the outcome, set the interrupt events, zero
the working state and the KEK, return to IDLE. -/
def complete (code : ResultCode) (valid : Bool) (s : State) : State :=
  { s with
    code := code
    valid := valid
    irqStatus := completionIrq code s.irqStatus
    a := 0
    t := 0
    ive := 0
    opl := 0
    nl := 0
    kll := 0
    kek := 0
    req := .none
    phase := .idle }

/-- The host's acknowledgement of events, a write to IRQ_STATUS (10_state.md R39; 60_exceptions.md
R416). -/
def acknowledge (v : Word) (s : State) : State := { s with irqStatus := acknowledgeIrq v s.irqStatus }

/-! ### Bus events and reset -/

/-- A dropped write: the target is unchanged and DROP is set (20_memory.md R106). -/
def dropWrite (s : State) : State := { s with irqStatus := dropIrq s.irqStatus }

/-- The outcome of a transaction, as the host sees it (30_encoding.md R157). -/
def answer (rdata : Option Word) (resp : Resp) (s : State) : State :=
  { s with busRsp := some { rdata := rdata, resp := resp } }

/-- The reset step (70_reset_and_hazards.md R450, R451): every piece of state at its reset value,
whatever the PHASE. N_MAX is a constant of the instance; the turns to come and the premise about the
core are the environment's. Log 13. -/
def resetBlock (s : State) : State :=
  { State.resetFor s.nmax with schedule := s.schedule, coreLive := s.coreLive }

end Sys2Proof.Machine
end

