-- ==== Sys2Proof/Machine/Carousel.lean ====
section
/-! DEFINITION. The steps every command shares (40_carousel.md): where a command stands (R62, R70),
the START checks (R210 to R214), ISSUE (R220), the AES response (R221). -/

namespace Sys2Proof.Machine

open Sys2Proof

/-- One step of a command, by its position PHASE, the block's equivalent of a program counter
(10_state.md R62): in IDLE its acceptance by the write to CMD, elsewhere the controller's or the AES
response step of the running command. Log 6. -/
def commandStep (op : BitVec 4) (ivsel : Bool) (start issue respond finish : State → Outcome)
    (s : State) : Outcome :=
  match s.phase with
  | .idle => .next (accept op ivsel s)
  | .start => start s
  | .issue => issue s
  | .wait => respond s
  | .finish => finish s

/-- The START checks of WRAP, UNWRAP and UNWRAP_STRICT, in their order (R210, R211, R213, R214). -/
def startChecked (init : State → State) (s : State) : State :=
  if s.kll = 3#2 then complete .badKeylen false s
  else if s.nl = 0#6 ∨ s.nmax < s.nl then complete .badLength false s
  else init s

/-- `init()` (R215) with the command's seed of A and first T. On the n = 1 path T is 0. -/
def seed (a : Block) (firstT : BitVec 64) (s : State) : State :=
  { s with a := a, t := if s.nl = 1#6 then 0#64 else firstT, phase := .issue }

/-- The ISSUE step (R220): send one request with the whole KEK (20_memory.md R121) and wait. -/
def issue (dir : Dir) (blk : Cipher) (s : State) : State :=
  { s with req := some { dir := dir, kl := s.kll, key := s.kek, blk := blk }, phase := .wait }

/-- The AES response step (R221): with a response B on the port, clear the request and apply the
command's round. Without one the command stays in WAIT (20_memory.md R125). -/
def respond (round : Cipher → State → State) (s : State) : State :=
  match s.aesRsp with
  | some b => round b { s with req := .none, aesRsp := .none }
  | none => s

end Sys2Proof.Machine
end

