-- ==== Sys2Proof/Machine/Maintenance.lean ====
section
/-! DEFINITION. CLEAR and the illegal opcodes (43_maintenance.md). Neither goes past START. -/

namespace Sys2Proof.Machine

open Sys2Proof

/-- No rule gives a step for a position past START with an opcode that completes there
(40_carousel.md R210); no run reaches one. Log 12. -/
def deadStep (_ : State) : Outcome := .fault .deadPosition

/-- `clear()` (R320): zero the buffer and complete with OK, VALID 0, whatever CONFIG holds. -/
def clearStart (s : State) : State := complete .ok false s.scrub

/-- The meaning of CLEAR (R320), step by step: it completes in its START step (R321). -/
def execClear (ivsel : Bool) (s : State) : Outcome :=
  commandStep 0x4#4 ivsel (fun s => .next (clearStart s)) deadStep deadStep deadStep s

/-- The steps of an illegal command word (R325): accepted like any command, it completes at START
with ILLEGAL_CMD. `op` is none of 0x1 to 0x4. -/
def illegalStep (op : BitVec 4) (ivsel : Bool) (s : State) : Outcome :=
  commandStep op ivsel (fun s => .next (complete .illegalCmd false s)) deadStep deadStep deadStep s

end Sys2Proof.Machine
end

