-- ==== Sys2Proof/Machine/Unwrap.lean ====
section
/-! DEFINITION. UNWRAP and UNWRAP_STRICT (42_unwrap.md): two entry points over one algorithm, apart
only in the code of a failed integrity check (R290, R291). -/

namespace Sys2Proof.Machine

open Sys2Proof

/-- The unwraps' arm of `init()` (40_carousel.md R215): A is W[0], T starts at 6·NL. -/
def unwrapInit (s : State) : State := seed (s.w 0) (BitVec.ofNat 64 (lastRound s.nl)) s

/-- The unwraps' cipher input (R281): A ‖ W[1] on the n = 1 path, else (A xor T) ‖ W[j]. The XOR is
not written back into A. -/
def unwrapInput (s : State) : Cipher :=
  (if s.nl = 1#6 then s.a else s.a ^^^ s.t) ++ s.w s.roundIndex

/-- The unwraps' round: R283 on the general path, R284 on the n = 1 path. -/
def unwrapRound (b : Cipher) (s : State) : State :=
  if s.nl = 1#6 then
    { s.setW 1 (lsb64 b) with a := msb64 b, phase := .finish }
  else
    { s.setW s.roundIndex (lsb64 b) with
      a := msb64 b
      t := s.t - 1
      phase := if s.t - 1 = 0#64 then .finish else .issue }

/-- The unwraps' FINISH (R285): compare all 64 bits of A with IVE; on success W[0] is A and the code
OK, else the buffer is scrubbed (R286) and the failure code posted, in the same step. -/
def unwrapFinish (failCode : ResultCode) (s : State) : State :=
  if s.a = s.ive then complete .ok true (s.setW 0 s.a)
  else complete failCode false s.scrub

/-- The meaning of UNWRAP (R280), step by step: a failed check is ABSENT. -/
def execUnwrap (ivsel : Bool) (s : State) : Outcome :=
  commandStep 0x2#4 ivsel
    (fun s => .next (startChecked unwrapInit s))
    (fun s => .next (issue .dec (unwrapInput s) s))
    (fun s => .next (respond unwrapRound s))
    (fun s => .next (unwrapFinish .absent s)) s

/-- The meaning of UNWRAP_STRICT (R290), step by step: a failed check is UNWRAP_FAILED. -/
def execUnwrapStrict (ivsel : Bool) (s : State) : Outcome :=
  commandStep 0x3#4 ivsel
    (fun s => .next (startChecked unwrapInit s))
    (fun s => .next (issue .dec (unwrapInput s) s))
    (fun s => .next (respond unwrapRound s))
    (fun s => .next (unwrapFinish .unwrapFailed s)) s

end Sys2Proof.Machine
end

