-- ==== Sys2Proof/Machine/Wrap.lean ====
section
/-! DEFINITION. WRAP (41_wrap.md). -/

namespace Sys2Proof.Machine

open Sys2Proof

/-- WRAP's arm of `init()` (40_carousel.md R215): A is seeded with the effective IV. -/
def wrapInit (s : State) : State := seed s.ive 1#64 s

/-- WRAP's cipher input, A ‖ W[j] on both paths (R251). -/
def wrapInput (s : State) : Cipher := s.a ++ s.w s.roundIndex

/-- WRAP's round: R253 on the general path, R254 (no XOR, T stays 0) on the n = 1 path. -/
def wrapRound (b : Cipher) (s : State) : State :=
  if s.nl = 1#6 then
    { s.setW 1 (lsb64 b) with a := msb64 b, phase := .finish }
  else
    { s.setW s.roundIndex (lsb64 b) with
      a := msb64 b ^^^ s.t
      t := s.t + 1
      phase := if lastRound s.nl < (s.t + 1).toNat then .finish else .issue }

/-- WRAP's FINISH (R255): write the integrity block and complete with OK. -/
def wrapFinish (s : State) : State := complete .ok true (s.setW 0 s.a)

/-- The meaning of WRAP (R250), step by step. -/
def execWrap (ivsel : Bool) (s : State) : Outcome :=
  commandStep 0x1#4 ivsel
    (fun s => .next (startChecked wrapInit s))
    (fun s => .next (issue .enc (wrapInput s) s))
    (fun s => .next (respond wrapRound s))
    (fun s => .next (wrapFinish s)) s

end Sys2Proof.Machine
end

