-- ==== Sys2Proof/Machine/Dispatch.lean ====
section
/-! DEFINITION. One arm per command of the opcode table. -/

namespace Sys2Proof.Machine

open Sys2Proof

-- One step of the command `i` at the position of `s` (40_carousel.md R200 to R222; log 6).
def exec (i : Instr) (s : State) : Host.Outcome State Fault Refusal :=
  match i with
  | .wrap ivsel => Sys2Proof.Machine.execWrap ivsel s
  | .unwrap ivsel => Sys2Proof.Machine.execUnwrap ivsel s
  | .unwrapStrict ivsel => Sys2Proof.Machine.execUnwrapStrict ivsel s
  | .clear ivsel => Sys2Proof.Machine.execClear ivsel s

end Sys2Proof.Machine
end

