-- ==== Sys2Proof/Machine/Bus.lean ====
section
/-! DEFINITION. The host's bus transactions (20_memory.md R103 to R108; 30_encoding.md R157). -/

namespace Sys2Proof.Machine

open Sys2Proof

/-- A data-buffer half as the host reads it: 0 while BUSY (10_state.md R52). -/
def bufferRead (s : State) (x : Nat) : Word := if s.busy then 0#32 else Memory.readWord s.mem x

/-- What a performed read of a register returns (20_memory.md R105). -/
def readReg (s : State) : Reg → Word
  | .hwcfg => hwcfgWord s
  | .config => configWord s
  | .cmd => 0#32
  | .status => statusWord s
  | .irqEnable => s.irqEnable.setWidth 32
  | .irqStatus => s.irqStatus.setWidth 32
  | .round => roundWord s
  | .ivHi => hiWord s.iv
  | .ivLo => loWord s.iv
  | .kek _ => 0#32
  | .whi j => bufferRead s (slotOffset j)
  | .wlo j => bufferRead s (slotOffset j + 4)

/-- A bus read (R103, R105, R107): it changes nothing of the block. -/
def busRead (addr : Offset) (width : Width) (s : State) : State :=
  if performed addr width then
    match s.regAt addr with
    | some r => answer (some (readReg s r)) .okay s
    | none => answer (some 0#32) .error s
  else answer (some 0#32) .error s

/-- One step of the command whose OP and IVSEL are given: a command of the opcode table, or an
illegal one (40_carousel.md R210; 43_maintenance.md R325). -/
def execOp (op : BitVec 4) (ivsel : Bool) (s : State) : Outcome :=
  match decodeOp op ivsel with
  | .ok i => exec i s
  | .error _ => illegalStep op ivsel s

/-- A CMD word written while IDLE: its command is accepted (40_carousel.md R200, R201). -/
def commandWrite (v : Word) (s : State) : Outcome :=
  match decode v with
  | .ok i => exec i s
  | .error _ => illegalStep (cmdOp v) (cmdIvsel v) s

/-- A performed write of a register while BUSY = 0 (R106). -/
def writeIdle (r : Reg) (v : Word) (s : State) : Outcome :=
  match r with
  | .config => .next { s with keylen := configKeylen v, n := configN v }
  | .cmd => commandWrite v s
  | .ivHi => .next { s with iv := setHiWord s.iv v }
  | .ivLo => .next { s with iv := setLoWord s.iv v }
  | .kek k => .next { s with kek := setKekWord k v s.kek }
  | .whi j => .next { s with mem := Memory.writeWord s.mem (slotOffset j) v }
  | .wlo j => .next { s with mem := Memory.writeWord s.mem (slotOffset j + 4) v }
  | .irqEnable => .next { s with irqEnable := v.extractLsb' 0 3 }
  | .irqStatus => .next (acknowledge v s)
  | .hwcfg | .status | .round => .next s

/-- A performed write of a register (R106, R108): the interrupt registers in every PHASE, the
read-only ones without effect, every other one dropped while BUSY = 1. -/
def writeReg (r : Reg) (v : Word) (s : State) : Outcome :=
  match r with
  | .hwcfg | .status | .round | .irqEnable | .irqStatus => writeIdle r v s
  | .config | .cmd | .ivHi | .ivLo | .kek _ | .whi _ | .wlo _ =>
    if s.busy then .next (dropWrite s) else writeIdle r v s

/-- A bus write (R103, R106, R107). -/
def busWrite (addr : Offset) (width : Width) (v : Word) (s : State) : Outcome :=
  if performed addr width then
    match s.regAt addr with
    | some r => writeReg r v (answer .none .okay s)
    | none => .next (answer .none .error s)
  else .next (answer .none .error s)

/-- The Host's step: one transaction (R110). -/
def hostStep (t : BusTxn) (s : State) : Outcome :=
  match t with
  | .rd addr width => .next (busRead addr width s)
  | .wr addr width v => busWrite addr width v s

end Sys2Proof.Machine
end

