-- ==== Sys2Proof/Machine/Agents.lean ====
section
/-! DEFINITION. The steps of the agents (00_scope.md R15; 40_carousel.md R223). A turn of an agent
that has no enabled step changes nothing of the block (log 9). -/

namespace Sys2Proof.Machine

open Sys2Proof

/-- One step of the running command, found from the latched opcode (10_state.md R63). IVSEL was used
at acceptance and plays no part any more. -/
def runningStep (s : State) : Outcome := execOp s.opl false s

/-- The Controller's turn: START, ISSUE or FINISH (R210, R220, R222). -/
def controllerStep (s : State) : Outcome :=
  match s.phase with
  | .start | .issue | .finish => runningStep s
  | .idle | .wait => .next s

/-- A response presented on the AES port: taken as B whatever it is (20_memory.md R126) while a
request is outstanding, else ignored (R123). -/
def presentResponse (b : Cipher) (s : State) : Outcome :=
  match s.phase, s.req with
  | .wait, some _ => runningStep { s with aesRsp := some b }
  | _, _ => .next s

/-- The AES core's turn (40_carousel.md R221): a conforming core answers the outstanding request. -/
def aesCoreStep (s : State) : Outcome :=
  match s.req with
  | some r => presentResponse (coreAnswer r) s
  | none => .next s

/-- One turn. -/
def takeTurn (e : Turn) (s : State) : Outcome :=
  match e with
  | .host t => hostStep t s
  | .controller => controllerStep s
  | .aesCore => aesCoreStep s
  | .portResponse b => presentResponse b s
  | .reset => .next (resetBlock s)

/-- Whose turn it is when the schedule names no one: the one enabled non-host step, if any
(40_carousel.md R223). The core's only under the premise AES_CORE_LIVE (20_memory.md R125). Log 2. -/
def ownTurn (s : State) : Option Turn :=
  match s.phase with
  | .idle => none
  | .wait => if s.coreLive then some .aesCore else none
  | .start | .issue | .finish => some .controller

end Sys2Proof.Machine
end

