-- ==== Sys2Proof/Machine/Step.lean ====
section
/-! DEFINITION. One atomic step of the block and its environment (00_scope.md R15; 20_memory.md
R110). -/

namespace Sys2Proof.Machine

open Sys2Proof

/-- The next step: the turn the schedule names, and, when it is used up, the enabled step of the
block's own, if any; else nothing changes. -/
def step (s : State) : Host.Outcome State Fault Refusal :=
  match s.schedule with
  | e :: rest => takeTurn e { s with schedule := rest }
  | [] =>
    match ownTurn s with
    | some e => takeTurn e s
    | none => .next s

/-- A state without a running command: PHASE, REQ and the working registers as completion leaves
them (40_carousel.md R230); nothing is posted. Used by `withFetchWord` only. -/
def State.abandon (s : State) : State :=
  if s.busy then
    { s with phase := .idle, req := .none, a := 0, t := 0, opl := 0, nl := 0, kll := 0, ive := 0 }
  else s

/-- The state in which the very next step is the host's write of the word to CMD, while IDLE: where
this block takes its next command from (40_carousel.md R200). A running command is abandoned, since
a write to CMD would be dropped. Log 14. -/
def State.withFetchWord (s : State) (nbits w : Nat) : State :=
  let s := s.abandon
  { s with
    schedule := .host (.wr 0x008#12 .w32 (BitVec.ofNat 32 (w % 2 ^ nbits))) :: s.schedule }

end Sys2Proof.Machine
end

