-- ==== Sys2Proof/Machine/Reference.lean ====
section
/-! DEFINITION. The source's algorithm as pure functions of the key data (41_wrap.md R250, R257;
42_unwrap.md R280, R288), against which statements hold the block's runs. The step function does not
use them. `enc` and `dec` are the cipher under the KEK. -/

namespace Sys2Proof.Machine

open Sys2Proof

/-- The 64-bit value of round t, zext_64(t) (40_carousel.md R235). -/
def roundBlock (t : Nat) : Block := BitVec.ofNat 64 t

/-- Round t of wrap on (A, R[1..n]) (R250). -/
def refWrapRound (enc : Cipher → Cipher) (x : Block × List Block) (t : Nat) : Block × List Block :=
  let i := carouselIndex t x.2.length
  let b := enc (x.1 ++ x.2.getD (i - 1) 0)
  (msb64 b ^^^ roundBlock t, x.2.set (i - 1) (lsb64 b))

/-- The first k rounds of wrap, t = 1 .. k, in ascending order (R252). -/
def refWrapRounds (enc : Cipher → Cipher) : Nat → Block × List Block → Block × List Block
  | 0, x => x
  | k + 1, x => refWrapRound enc (refWrapRounds enc k x) (k + 1)

/-- `wrap(P1 ‖ … ‖ Pn, K, iv)`: the n + 1 blocks of the wrapped key (R250). -/
def refWrap (enc : Cipher → Cipher) (iv : Block) (p : List Block) : List Block :=
  if p.length = 1 then
    let b := enc (iv ++ p.getD 0 0)
    [msb64 b, lsb64 b]
  else
    let x := refWrapRounds enc (6 * p.length) (iv, p)
    x.1 :: x.2

/-- Round t of unwrap on (A, R[1..n]) (R280). -/
def refUnwrapRound (dec : Cipher → Cipher) (x : Block × List Block) (t : Nat) : Block × List Block :=
  let i := carouselIndex t x.2.length
  let b := dec ((x.1 ^^^ roundBlock t) ++ x.2.getD (i - 1) 0)
  (msb64 b, x.2.set (i - 1) (lsb64 b))

/-- The rounds k, k - 1, .., 1 of unwrap, in descending order (R282). -/
def refUnwrapRounds (dec : Cipher → Cipher) : Nat → Block × List Block → Block × List Block
  | 0, x => x
  | k + 1, x => refUnwrapRounds dec k (refUnwrapRound dec x (k + 1))

/-- The final A and the candidate key of an unwrap of C0 ‖ … ‖ Cn (R280). -/
def refUnwrapCandidate (dec : Cipher → Cipher) (c0 : Block) (c : List Block) : Block × List Block :=
  if c.length = 1 then
    let b := dec (c0 ++ c.getD 0 0)
    (msb64 b, [lsb64 b])
  else refUnwrapRounds dec (6 * c.length) (c0, c)

/-- `unwrap(C0 ‖ … ‖ Cn, K, iv)`: the key, or absent when the final A differs from iv (R280). -/
def refUnwrap (dec : Cipher → Cipher) (iv c0 : Block) (c : List Block) : Option (List Block) :=
  let x := refUnwrapCandidate dec c0 c
  if x.1 = iv then some x.2 else none

end Sys2Proof.Machine
end

