-- ==== Sys2Proof/Machine/Script.lean ====
section
/-! DEFINITION. The host-script notation as bus transactions (30_encoding.md R162, R163). It has no
meaning beyond them. -/

namespace Sys2Proof.Machine

open Sys2Proof

/-- `WR <reg>, <imm32>` (R162). -/
def wrTxn (r : Reg) (v : Word) : BusTxn := .wr (BitVec.ofNat 12 (regOffset r)) .w32 v

/-- `RD <reg>` (R162). -/
def rdTxn (r : Reg) : BusTxn := .rd (BitVec.ofNat 12 (regOffset r)) .w32

/-- CONFIG.KEYLEN of a key length (R154). -/
def keyBitsCode : KeyBits → Word
  | .k128 => 0#32
  | .k192 => 1#32
  | .k256 => 2#32

/-- The big-endian words of a byte string; a rest of fewer than four bytes has none (R163, R101). -/
def wordsOfBytes : List Byte → List Word
  | b0 :: b1 :: b2 :: b3 :: rest => (b0 ++ b1 ++ b2 ++ b3 : BitVec 32) :: wordsOfBytes rest
  | _ => []

/-- `WR KEKk` for the words in turn, from KEKk on (R163). -/
def kekWrites : Nat → List Word → List BusTxn
  | _, [] => []
  | k, v :: vs => wrTxn (.kek (Fin.ofNat 8 k)) v :: kekWrites (k + 1) vs

/-- The transactions of a script line (R163). -/
def ScriptLine.expand : ScriptLine → List BusTxn
  | .wr r v => [wrTxn r v]
  | .rd r => [rdTxn r]
  | .cfg kl n => [wrTxn .config ((BitVec.ofNat 32 n <<< 8) ||| keyBitsCode kl)]
  | .ldkek bytes => kekWrites 0 (wordsOfBytes bytes)
  | .wr64W j v => [wrTxn (.whi j) (hiWord v), wrTxn (.wlo j) (loWord v)]
  | .wr64Iv v => [wrTxn .ivHi (hiWord v), wrTxn .ivLo (loWord v)]
  | .rd64W j => [rdTxn (.whi j), rdTxn (.wlo j)]
  | .command i => [wrTxn .cmd (encode i)]
  | .waitIdle reads => List.replicate reads (rdTxn .status)
  | .ack bits => [wrTxn .irqStatus bits]

/-- The turns of a host script in which no other agent's turn falls between two transactions. -/
def scriptTurns (lines : List ScriptLine) : List Turn :=
  (lines.flatMap ScriptLine.expand).map .host

end Sys2Proof.Machine
end

