-- ==== Sys2Proof/Safety.lean ====
section
/-! DEFINITION. What claims call a good state, a safe answer, an undisturbed schedule, and how far a
command has come. -/

namespace Sys2Proof.Machine

open Sys2Proof

/-- WRAP, UNWRAP and UNWRAP_STRICT, the opcodes that go past START (40_carousel.md R210). -/
def keyedOp (op : BitVec 4) : Bool := decide (op = 0x1#4) || decide (op = 0x2#4) || decide (op = 0x3#4)

/-- The opcodes of the opcode map (30_encoding.md R151). -/
def legalOp (op : BitVec 4) : Bool := keyedOp op || decide (op = 0x4#4)

/-- A step that is a step of the machine: not a fault, not a refusal. -/
def safeAnswer (o : Host.Outcome State Fault Refusal) : Prop := ∃ s, o = .next s

/-- The latched key length and n are those R213 and R214 let through. -/
def State.lengthsLegal (s : State) : Bool :=
  decide (s.kll ≠ 3#2) && decide (s.nl ≠ 0#6) && decide (s.nl ≤ s.nmax)

/-- PHASE is past START (10_state.md R62). -/
def State.inRounds (s : State) : Bool :=
  decide (s.phase = .issue) || decide (s.phase = .wait) || decide (s.phase = .finish)

/-- The direction the running command's requests have (40_carousel.md R220). -/
def State.runningDir (s : State) : Dir := if s.opl = 0x1#4 then .enc else .dec

/-- The cipher input of the running command's current round (41_wrap.md R251; 42_unwrap.md R281). -/
def State.runningInput (s : State) : Cipher := if s.opl = 0x1#4 then wrapInput s else unwrapInput s

/-- The request of the running command's current round (40_carousel.md R220). -/
def State.runningReq (s : State) : AesReq :=
  { dir := s.runningDir, kl := s.kll, key := s.kek, blk := s.runningInput }

/-- The values T takes at each position past START (10_state.md R40, R61). -/
def State.roundLegal (s : State) : Prop :=
  if s.nl = 1#6 then s.t = 0#64
  else if s.phase = .finish then
    s.t = if s.opl = 0x1#4 then BitVec.ofNat 64 (lastRound s.nl + 1) else 0#64
  else 1 ≤ s.t.toNat ∧ s.t.toNat ≤ lastRound s.nl

/-- The invariant of the block: what holds in every state after reset. -/
structure State.Inv (s : State) : Prop where
  /-- N_MAX is at least 2 (00_scope.md R6). -/
  nmax_ge : 2 ≤ s.nmax.toNat
  /-- The data buffer keeps its canonical form. -/
  mem_wf : Memory.wf s.mem = true
  /-- Only the offsets of W[0..N_MAX] are listed (10_state.md R50). -/
  mem_inside : ∀ c ∈ s.mem, inBuffer s.nmax.toNat c.1 = true
  /-- Outside a command the working state is zero (40_carousel.md R230). -/
  idle_zero : s.phase = .idle →
    s.a = 0 ∧ s.t = 0 ∧ s.opl = 0 ∧ s.nl = 0 ∧ s.kll = 0 ∧ s.ive = 0
  /-- In START A and T are still zero (10_state.md R40, R60). -/
  start_zero : s.phase = .start → s.a = 0 ∧ s.t = 0
  /-- Past START the command is one of the three, with legal lengths (40_carousel.md R210). -/
  rounds_legal : s.inRounds = true → keyedOp s.opl = true ∧ s.lengthsLegal = true
  /-- Past START T is in its range (10_state.md R61). -/
  round_range : s.inRounds = true → s.roundLegal
  /-- In WAIT the request is that of the current round (40_carousel.md R220). -/
  wait_req : s.phase = .wait → s.req = some s.runningReq
  /-- Outside WAIT there is no request (10_state.md R64). -/
  no_req : s.phase ≠ .wait → s.req = none
  /-- VALID is set only outside a command, beside code OK (40_carousel.md R201, R230). -/
  valid_ok : s.valid = true → s.phase = .idle ∧ s.code = .ok
  /-- No response is held on the port between steps. -/
  no_rsp : s.aesRsp = none

/-- A turn that neither resets the block nor presents a response of other content than a conforming
core's (20_memory.md R124, R126). -/
def Turn.undisturbing : Turn → Bool
  | .host _ | .controller | .aesCore => true
  | .portResponse _ | .reset => false

/-- No turn of the schedule disturbs. -/
def State.undisturbed (s : State) : Bool := s.schedule.all Turn.undisturbing

/-- The state in which `e` is the next turn. -/
def State.givenTurn (s : State) (e : Turn) : State := { s with schedule := e :: s.schedule }

/-- W[first], .., W[first + count - 1]. -/
def State.slots (s : State) (first count : Nat) : List Block :=
  (List.range count).map (fun j => s.w (first + j))

/-- The rounds from the current one on, on the general path (41_wrap.md R252; 42_unwrap.md R282). -/
def roundsLeft (s : State) : Nat :=
  if s.opl = 0x1#4 then lastRound s.nl + 1 - s.t.toNat else s.t.toNat

/-- The number of non-host steps the running command still takes (40_carousel.md R233). -/
def stepsLeft (s : State) : Nat :=
  match s.phase with
  | .idle => 0
  | .start =>
    if keyedOp s.opl && s.lengthsLegal then (if s.nl = 1#6 then 4 else 12 * s.nl.toNat + 2) else 1
  | .issue => if s.nl = 1#6 then 3 else 2 * roundsLeft s + 1
  | .wait => if s.nl = 1#6 then 2 else 2 * roundsLeft s
  | .finish => 1

/-- The number of AES requests the running command still sends (40_carousel.md R232). -/
def callsLeft (s : State) : Nat :=
  match s.phase with
  | .idle => 0
  | .start =>
    if keyedOp s.opl && s.lengthsLegal then (if s.nl = 1#6 then 1 else lastRound s.nl) else 0
  | .issue => if s.nl = 1#6 then 1 else roundsLeft s
  | .wait => if s.nl = 1#6 then 0 else roundsLeft s - 1
  | .finish => 0

/-- A request without its key. -/
def AesReq.hideKey (r : AesReq) : AesReq := { r with key := 0 }

/-- A state without the KEK, in its register and in the outstanding request. -/
def State.hideKey (s : State) : State := { s with kek := 0, req := s.req.map AesReq.hideKey }

/-- A run from `s` that reaches IDLE for the first time after `k` steps, in `s'`. -/
def firstIdle (s : State) (k : Nat) (s' : State) : Prop :=
  Host.Core.run Sys2Proof.core k s = .next s' ∧ s'.phase = .idle ∧
    ∀ j < k, ∀ t : State, Host.Core.run Sys2Proof.core j s = .next t → t.phase ≠ .idle

end Sys2Proof.Machine
end

