-- ==== Sys2Proof/Certificates/Slice0/Obligations.lean ====
section
/-! DEFINITION. The statements for the provers. Each docstring names the rules it formalises.
`s.givenTurn e` is `s` with `e` as the next turn; a record update `{ s with … }` in a conclusion is
also the statement's frame: every field it does not name is unchanged. -/

open Sys2Proof Sys2Proof.Machine

/-! ### Encoding -/

/-- CMD words written out from R150 and R151, legal, illegal and with ignored bits set. -/
def Obligations.DecodeOfWrittenWords : Prop :=
  decode 0x00000001#32 = .ok (.wrap false) ∧ decode 0x00000101#32 = .ok (.wrap true) ∧
  decode 0x00000002#32 = .ok (.unwrap false) ∧ decode 0x00000102#32 = .ok (.unwrap true) ∧
  decode 0x00000003#32 = .ok (.unwrapStrict false) ∧
  decode 0x00000103#32 = .ok (.unwrapStrict true) ∧
  decode 0x00000004#32 = .ok (.clear false) ∧ decode 0x00000104#32 = .ok (.clear true) ∧
  decode 0xABCD00F1#32 = .ok (.wrap false) ∧
  decode 0x00000000#32 = .error (.illegalOpcode 0x0#4) ∧
  decode 0x00000105#32 = .error (.illegalOpcode 0x5#4) ∧
  decode 0x0000000F#32 = .error (.illegalOpcode 0xF#4)

/-- R153: a word and a command belong together exactly when they agree on OP and IVSEL, whatever the
ignored bits are; R160: the refused words are those with OP 0x0 or 0x5 to 0xF. -/
def Obligations.DecodeIgnoresAllButOpAndIvsel : Prop :=
  (∀ (w : Word) (i : Instr), decode w = .ok i ↔ encode i = w &&& 0x0000010F#32) ∧
  (∀ w : Word, decode w = .error (.illegalOpcode (w.extractLsb' 0 4)) ↔
    (w.extractLsb' 0 4 = 0#4 ∨ 5 ≤ (w.extractLsb' 0 4).toNat))

/-- R33 and R107: the register at every aligned offset, and no register at every other one. -/
def Obligations.RegisterMapIsTheTable : Prop :=
  ∀ (nmax a : Nat) (r : Reg), a % 4 = 0 →
    (regAt nmax a = some r ↔
      match r with
      | .hwcfg => a = 0x000
      | .config => a = 0x004
      | .cmd => a = 0x008
      | .status => a = 0x00C
      | .irqEnable => a = 0x010
      | .irqStatus => a = 0x014
      | .round => a = 0x018
      | .ivHi => a = 0x020
      | .ivLo => a = 0x024
      | .kek k => a = 0x040 + 4 * k.val
      | .whi j => j ≤ nmax ∧ a = 0x100 + 8 * j
      | .wlo j => j ≤ nmax ∧ a = 0x104 + 8 * j)

/-! ### The host's bus -/

/-- R103: a narrow or misaligned access is not performed. -/
def Obligations.UnperformedAccessDoesNothing : Prop :=
  ∀ (s : State) (addr : Offset) (width : Width) (v : Word),
    (width ≠ .w32 ∨ addr.toNat % 4 ≠ 0) →
    step (s.givenTurn (.host (.rd addr width)))
      = .next { s with busRsp := some { rdata := some 0, resp := .error } } ∧
    step (s.givenTurn (.host (.wr addr width v)))
      = .next { s with busRsp := some { rdata := none, resp := .error } }

/-- R107: an aligned 32-bit access to an offset where no register stands. -/
def Obligations.ReservedOffsetErrors : Prop :=
  ∀ (s : State) (addr : Offset) (v : Word), addr.toNat % 4 = 0 →
    (∀ r : Reg, r.wellFormed s.nmax.toNat = true → regOffset r ≠ addr.toNat) →
    step (s.givenTurn (.host (.rd addr .w32)))
      = .next { s with busRsp := some { rdata := some 0, resp := .error } } ∧
    step (s.givenTurn (.host (.wr addr .w32 v)))
      = .next { s with busRsp := some { rdata := none, resp := .error } }

/-- R105 with R34 to R42, R52, R154, R155: what a performed read of each register returns; nothing
of the block changes. -/
def Obligations.ReadReturnsTheRegister : Prop :=
  ∀ (s : State) (r : Reg), r.wellFormed s.nmax.toNat = true →
    ∃ v : Word,
      step (s.givenTurn (.host (rdTxn r)))
        = .next { s with busRsp := some { rdata := some v, resp := .okay } } ∧
      match r with
      | .hwcfg => v = s.nmax.setWidth 32
      | .config => v.extractLsb' 0 2 = s.keylen ∧ v.extractLsb' 8 6 = s.n ∧ v &&& 0xFFFFC0FC#32 = 0
      | .cmd => v = 0
      | .status => v.getLsbD 0 = decide (s.phase ≠ .idle) ∧ v.getLsbD 1 = s.valid ∧
          v.extractLsb' 4 4 = s.code.bits ∧ v &&& 0xFFFFFF0C#32 = 0
      | .irqEnable => v = s.irqEnable.setWidth 32
      | .irqStatus => v = s.irqStatus.setWidth 32
      | .round => v = s.t.extractLsb' 0 32
      | .ivHi => v = s.iv.extractLsb' 32 32
      | .ivLo => v = s.iv.extractLsb' 0 32
      | .kek _ => v = 0
      | .whi j => v = if s.phase = .idle then (s.w j).extractLsb' 32 32 else 0
      | .wlo j => v = if s.phase = .idle then (s.w j).extractLsb' 0 32 else 0

/-- R106 and R200: a write to CONFIG, CMD, the IV, the KEK or the data buffer while BUSY = 1 only
sets DROP. -/
def Obligations.BusyWriteIsDropped : Prop :=
  ∀ (s : State) (r : Reg) (v : Word), s.phase ≠ .idle → r.wellFormed s.nmax.toNat = true →
    r ≠ .hwcfg → r ≠ .status → r ≠ .round → r ≠ .irqEnable → r ≠ .irqStatus →
    step (s.givenTurn (.host (wrTxn r v)))
      = .next { s with
          irqStatus := s.irqStatus ||| 0b100#3
          busRsp := some { rdata := none, resp := .okay } }

/-- R38, R39, R108, D49: in every PHASE, IRQ_ENABLE takes the written bits, IRQ_STATUS loses those
written 1, and the read-only registers do nothing. -/
def Obligations.InterruptAndReadOnlyWritesInEveryPhase : Prop :=
  ∀ (s : State) (v : Word),
    step (s.givenTurn (.host (wrTxn .irqEnable v)))
      = .next { s with
          irqEnable := v.extractLsb' 0 3
          busRsp := some { rdata := none, resp := .okay } } ∧
    step (s.givenTurn (.host (wrTxn .irqStatus v)))
      = .next { s with
          irqStatus := s.irqStatus &&& ~~~(v.extractLsb' 0 3)
          busRsp := some { rdata := none, resp := .okay } } ∧
    ∀ r : Reg, (r = .hwcfg ∨ r = .status ∨ r = .round) →
      step (s.givenTurn (.host (wrTxn r v)))
        = .next { s with busRsp := some { rdata := none, resp := .okay } }

/-- R106 with R35 and R41: a write to CONFIG, IV_HI or IV_LO while IDLE. -/
def Obligations.IdleWriteSetsConfigAndIv : Prop :=
  ∀ (s : State) (v : Word), s.phase = .idle →
    step (s.givenTurn (.host (wrTxn .config v)))
      = .next { s with
          keylen := v.extractLsb' 0 2
          n := v.extractLsb' 8 6
          busRsp := some { rdata := none, resp := .okay } } ∧
    step (s.givenTurn (.host (wrTxn .ivHi v)))
      = .next { s with
          iv := v ++ s.iv.extractLsb' 0 32
          busRsp := some { rdata := none, resp := .okay } } ∧
    step (s.givenTurn (.host (wrTxn .ivLo v)))
      = .next { s with
          iv := s.iv.extractLsb' 32 32 ++ v
          busRsp := some { rdata := none, resp := .okay } }

/-- R42 and R106: a write to KEKk while IDLE sets bits [255-32k : 224-32k] of the KEK and no other
bit. -/
def Obligations.IdleWriteSetsOneKekWord : Prop :=
  ∀ (s : State) (k : Fin 8) (v : Word), s.phase = .idle →
    ∃ kek : Key,
      step (s.givenTurn (.host (wrTxn (.kek k) v)))
        = .next { s with kek := kek, busRsp := some { rdata := none, resp := .okay } } ∧
      kek.extractLsb' (224 - 32 * k.val) 32 = v ∧
      ∀ b, (b < 224 - 32 * k.val ∨ 256 - 32 * k.val ≤ b) → kek.getLsbD b = s.kek.getLsbD b

/-- R50 and R106: a write to WHI_j or WLO_j while IDLE sets its half of W[j] and no other byte of
the buffer. -/
def Obligations.IdleWriteSetsOneBufferWord : Prop :=
  ∀ (s : State) (j : Nat) (v : Word), s.phase = .idle → j ≤ s.nmax.toNat →
    (∃ m : Memory,
      step (s.givenTurn (.host (wrTxn (.whi j) v)))
        = .next { s with mem := m, busRsp := some { rdata := none, resp := .okay } } ∧
      Memory.slot m j = v ++ (s.w j).extractLsb' 0 32 ∧
      ∀ x, (x < regOffset (.whi j) ∨ regOffset (.whi j) + 4 ≤ x) →
        Memory.readByte m x = Memory.readByte s.mem x) ∧
    (∃ m : Memory,
      step (s.givenTurn (.host (wrTxn (.wlo j) v)))
        = .next { s with mem := m, busRsp := some { rdata := none, resp := .okay } } ∧
      Memory.slot m j = (s.w j).extractLsb' 32 32 ++ v ∧
      ∀ x, (x < regOffset (.wlo j) ∨ regOffset (.wlo j) + 4 ≤ x) →
        Memory.readByte m x = Memory.readByte s.mem x)

/-- R109: a second, equal write changes nothing more, for every register but CMD, in every PHASE, also
when both are dropped. -/
def Obligations.WritesAreIdempotent : Prop :=
  ∀ (s s' : State) (r : Reg) (v : Word), s.Inv → r ≠ .cmd → r.wellFormed s.nmax.toNat = true →
    step (s.givenTurn (.host (wrTxn r v))) = .next s' →
    step (s'.givenTurn (.host (wrTxn r v))) = .next s'

/-- R69 and R411: irq is 1 exactly while a pending source is enabled, and enabling a pending source
raises it in that write's own step. -/
def Obligations.IrqFollowsPendingAndEnable : Prop :=
  (∀ s : State, s.irq = true ↔ ∃ k < 3, s.irqStatus.getLsbD k = true ∧ s.irqEnable.getLsbD k = true) ∧
  (∀ (s : State) (v : Word), ∃ s' : State,
    step (s.givenTurn (.host (wrTxn .irqEnable v))) = .next s' ∧
    (s'.irq = true ↔ ∃ k < 3, s.irqStatus.getLsbD k = true ∧ v.getLsbD k = true))

/-- R162 and R163: nine example lines of the host script and their transactions. R163 repeats the
STATUS read of WAITIDLE without a bound; that a WAITIDLE line carries a fixed number of reads, here
one, is the model's choice, log 21 (DESIGN CHOICE). -/
def Obligations.ScriptLinesExpandAsListed : Prop :=
  ScriptLine.expand (.cfg .k128 2) = [.wr 0x004#12 .w32 0x00000200#32] ∧
  ScriptLine.expand (.cfg .k256 1) = [.wr 0x004#12 .w32 0x00000102#32] ∧
  ScriptLine.expand (.wr64W 1 0x0011223344556677#64)
    = [.wr 0x108#12 .w32 0x00112233#32, .wr 0x10C#12 .w32 0x44556677#32] ∧
  ScriptLine.expand (.wr64Iv 0xDEADBEEFC0FFEEEE#64)
    = [.wr 0x020#12 .w32 0xDEADBEEF#32, .wr 0x024#12 .w32 0xC0FFEEEE#32] ∧
  ScriptLine.expand (.rd64W 0) = [.rd 0x100#12 .w32, .rd 0x104#12 .w32] ∧
  ScriptLine.expand (.command (.wrap true)) = [.wr 0x008#12 .w32 0x00000101#32] ∧
  ScriptLine.expand (.command (.unwrapStrict false)) = [.wr 0x008#12 .w32 0x00000003#32] ∧
  ScriptLine.expand (.waitIdle 1) = [.rd 0x00C#12 .w32] ∧
  ScriptLine.expand (.ack 1#32) = [.wr 0x014#12 .w32 0x00000001#32]

/-- R163 (LDKEK), R42 and R101: eight steps of `LDKEK` with 32 bytes load the key, byte 4k in the
top byte of KEKk, and touch nothing else but the bus response. -/
def Obligations.LdkekLoadsThirtyTwoBytes : Prop :=
  ∀ (s : State) (bytes : List Byte), bytes.length = 32 → s.phase = .idle →
    s.schedule = scriptTurns [.ldkek bytes] →
    ∃ kek : Key,
      Host.Core.run Sys2Proof.core 8 s
        = .next { s with
            kek := kek
            schedule := []
            busRsp := some { rdata := none, resp := .okay } } ∧
      ∀ b < 32, kek.extractLsb' (248 - 8 * b) 8 = bytes.getD b 0

/-! ### Acceptance -/

/-- R200 and R201: every CMD word written while IDLE is accepted, whatever its opcode, and nothing
but the latches, VALID and PHASE changes. -/
def Obligations.CmdWriteIsAcceptedWhileIdle : Prop :=
  ∀ (s : State) (v : Word), s.phase = .idle →
    step (s.givenTurn (.host (wrTxn .cmd v)))
      = .next { s with
          opl := v.extractLsb' 0 4
          nl := s.n
          kll := s.keylen
          ive := if v.getLsbD 8 then s.iv else 0xA6A6A6A6A6A6A6A6#64
          valid := false
          phase := .start
          busRsp := some { rdata := none, resp := .okay } }

/-- R201 for the four commands of the opcode table. -/
def Obligations.CommandLatchesItsInputs : Prop :=
  ∀ (i : Instr) (s : State), s.phase = .idle →
    exec i s = .next { s with
      opl := match i with
        | .wrap _ => 0x1#4
        | .unwrap _ => 0x2#4
        | .unwrapStrict _ => 0x3#4
        | .clear _ => 0x4#4
      nl := s.n
      kll := s.keylen
      ive := if i.ivsel then s.iv else 0xA6A6A6A6A6A6A6A6#64
      valid := false
      phase := .start }

/-- R152: IVSEL = 1 with the default value in the IV register is the same command as IVSEL = 0. -/
def Obligations.DefaultIvInRegisterIsIvselZero : Prop :=
  ∀ s : State, s.phase = .idle → s.iv = 0xA6A6A6A6A6A6A6A6#64 →
    exec (.wrap true) s = exec (.wrap false) s ∧ exec (.unwrap true) s = exec (.unwrap false) s ∧
    exec (.unwrapStrict true) s = exec (.unwrapStrict false) s

/-! ### The controller's steps -/

/-- R210, R211, R213, R214, R212, R230: the refusals at START, in their order; W, IV and CONFIG
stay. -/
def Obligations.StartRefusesBadLengths : Prop :=
  ∀ (i : Instr) (s : State), s.phase = .start → (∀ b, i ≠ .clear b) →
    (s.kll = 3#2 →
      exec i s = .next { s with
        code := .badKeylen, valid := false, irqStatus := s.irqStatus ||| 0b011#3
        a := 0, t := 0, ive := 0, opl := 0, nl := 0, kll := 0, kek := 0, req := none
        phase := .idle }) ∧
    (s.kll ≠ 3#2 → (s.nl = 0#6 ∨ s.nmax.toNat < s.nl.toNat) →
      exec i s = .next { s with
        code := .badLength, valid := false, irqStatus := s.irqStatus ||| 0b011#3
        a := 0, t := 0, ive := 0, opl := 0, nl := 0, kll := 0, kek := 0, req := none
        phase := .idle })

/-- R215: `init()`. -/
def Obligations.StartSeedsTheRounds : Prop :=
  ∀ (b : Bool) (s : State), s.phase = .start → s.kll ≠ 3#2 → s.nl ≠ 0#6 →
    s.nl.toNat ≤ s.nmax.toNat →
    exec (.wrap b) s = .next { s with
      a := s.ive
      t := if s.nl = 1#6 then 0 else 1
      phase := .issue } ∧
    ∀ i : Instr, (i = .unwrap b ∨ i = .unwrapStrict b) →
      exec i s = .next { s with
        a := s.w 0
        t := if s.nl = 1#6 then 0 else BitVec.ofNat 64 (6 * s.nl.toNat)
        phase := .issue }

/-- R220, R251, R281, R121: the one request of a round. -/
def Obligations.IssueSendsTheRoundsRequest : Prop :=
  ∀ (b : Bool) (s : State) (j : Nat), s.phase = .issue →
    j = (if s.nl = 1#6 then 1 else (s.t.toNat - 1) % s.nl.toNat + 1) →
    exec (.wrap b) s = .next { s with
      req := some { dir := .enc, kl := s.kll, key := s.kek, blk := s.a ++ s.w j }
      phase := .wait } ∧
    ∀ i : Instr, (i = .unwrap b ∨ i = .unwrapStrict b) →
      exec i s = .next { s with
        req := some { dir := .dec, kl := s.kll, key := s.kek,
                      blk := (if s.nl = 1#6 then s.a else s.a ^^^ s.t) ++ s.w j }
        phase := .wait }

/-- R253 and R254: WRAP's round update for a response B; no byte outside the visited slot changes. -/
def Obligations.WrapRoundUpdatesAAndTheVisitedSlot : Prop :=
  ∀ (b : Bool) (s : State) (B : Cipher) (j : Nat), s.phase = .wait → s.aesRsp = some B →
    j = (if s.nl = 1#6 then 1 else (s.t.toNat - 1) % s.nl.toNat + 1) →
    ∃ m : Memory,
      Memory.slot m j = B.extractLsb' 0 64 ∧
      (∀ x, (x < slotOffset j ∨ slotOffset (j + 1) ≤ x) →
        Memory.readByte m x = Memory.readByte s.mem x) ∧
      exec (.wrap b) s = .next { s with
        mem := m
        a := if s.nl = 1#6 then B.extractLsb' 64 64 else B.extractLsb' 64 64 ^^^ s.t
        t := if s.nl = 1#6 then s.t else s.t + 1
        phase := if s.nl = 1#6 ∨ 6 * s.nl.toNat < (s.t + 1).toNat then .finish else .issue
        req := none
        aesRsp := none }

/-- R283 and R284: the unwraps' round update for a response B. -/
def Obligations.UnwrapRoundUpdatesAAndTheVisitedSlot : Prop :=
  ∀ (b : Bool) (i : Instr) (s : State) (B : Cipher) (j : Nat),
    (i = .unwrap b ∨ i = .unwrapStrict b) → s.phase = .wait → s.aesRsp = some B →
    j = (if s.nl = 1#6 then 1 else (s.t.toNat - 1) % s.nl.toNat + 1) →
    ∃ m : Memory,
      Memory.slot m j = B.extractLsb' 0 64 ∧
      (∀ x, (x < slotOffset j ∨ slotOffset (j + 1) ≤ x) →
        Memory.readByte m x = Memory.readByte s.mem x) ∧
      exec i s = .next { s with
        mem := m
        a := B.extractLsb' 64 64
        t := if s.nl = 1#6 then s.t else s.t - 1
        phase := if s.nl = 1#6 ∨ s.t - 1 = 0 then .finish else .issue
        req := none
        aesRsp := none }

/-- R255 and R230: WRAP's FINISH writes A to W[0], and no other byte, and completes with OK. -/
def Obligations.WrapFinishWritesTheIntegrityBlock : Prop :=
  ∀ (b : Bool) (s : State), s.phase = .finish →
    ∃ m : Memory,
      Memory.slot m 0 = s.a ∧
      (∀ x, (x < slotOffset 0 ∨ slotOffset 1 ≤ x) →
        Memory.readByte m x = Memory.readByte s.mem x) ∧
      exec (.wrap b) s = .next { s with
        mem := m
        code := .ok, valid := true, irqStatus := s.irqStatus ||| 0b001#3
        a := 0, t := 0, ive := 0, opl := 0, nl := 0, kll := 0, kek := 0, req := none
        phase := .idle }

/-- R285 and R230: an unwrap whose A equals IVE writes it to W[0], and no other byte, and completes
with OK. -/
def Obligations.UnwrapFinishAcceptsEqualIv : Prop :=
  ∀ (b : Bool) (i : Instr) (s : State), (i = .unwrap b ∨ i = .unwrapStrict b) →
    s.phase = .finish → s.a = s.ive →
    ∃ m : Memory,
      Memory.slot m 0 = s.ive ∧
      (∀ x, (x < slotOffset 0 ∨ slotOffset 1 ≤ x) →
        Memory.readByte m x = Memory.readByte s.mem x) ∧
      exec i s = .next { s with
        mem := m
        code := .ok, valid := true, irqStatus := s.irqStatus ||| 0b001#3
        a := 0, t := 0, ive := 0, opl := 0, nl := 0, kll := 0, kek := 0, req := none
        phase := .idle }

/-- R285, R286, R290, R230: an unwrap whose A differs from IVE zeroes all of the buffer in the step
that posts ABSENT, or for UNWRAP_STRICT UNWRAP_FAILED with ERR. -/
def Obligations.UnwrapFinishScrubsOnMismatch : Prop :=
  ∀ (b : Bool) (s : State), s.phase = .finish → s.a ≠ s.ive →
    ∃ m : Memory,
      (∀ j ≤ s.nmax.toNat, Memory.slot m j = 0) ∧
      (∀ x, (x < slotOffset 0 ∨ slotOffset (s.nmax.toNat + 1) ≤ x) →
        Memory.readByte m x = Memory.readByte s.mem x) ∧
      exec (.unwrap b) s = .next { s with
        mem := m
        code := .absent, valid := false, irqStatus := s.irqStatus ||| 0b001#3
        a := 0, t := 0, ive := 0, opl := 0, nl := 0, kll := 0, kek := 0, req := none
        phase := .idle } ∧
      exec (.unwrapStrict b) s = .next { s with
        mem := m
        code := .unwrapFailed, valid := false, irqStatus := s.irqStatus ||| 0b011#3
        a := 0, t := 0, ive := 0, opl := 0, nl := 0, kll := 0, kek := 0, req := none
        phase := .idle }

/-- R320 and R230: CLEAR's START step zeroes all of the buffer and completes with OK and VALID 0,
whatever CONFIG held. -/
def Obligations.ClearZeroesTheBuffer : Prop :=
  ∀ (b : Bool) (s : State), s.phase = .start →
    ∃ m : Memory,
      (∀ j ≤ s.nmax.toNat, Memory.slot m j = 0) ∧
      (∀ x, (x < slotOffset 0 ∨ slotOffset (s.nmax.toNat + 1) ≤ x) →
        Memory.readByte m x = Memory.readByte s.mem x) ∧
      exec (.clear b) s = .next { s with
        mem := m
        code := .ok, valid := false, irqStatus := s.irqStatus ||| 0b001#3
        a := 0, t := 0, ive := 0, opl := 0, nl := 0, kll := 0, kek := 0, req := none
        phase := .idle }

/-- R325, R326 and R230: an illegal opcode completes at START with ILLEGAL_CMD and ERR; W, IV and
CONFIG stay. -/
def Obligations.IllegalOpcodeCompletesAtStart : Prop :=
  ∀ s : State, s.phase = .start → (s.opl = 0#4 ∨ 5 ≤ s.opl.toNat) →
    step (s.givenTurn .controller) = .next { s with
      code := .illegalCmd, valid := false, irqStatus := s.irqStatus ||| 0b011#3
      a := 0, t := 0, ive := 0, opl := 0, nl := 0, kll := 0, kek := 0, req := none
      phase := .idle }

/-! ### Steps -/

/-- A step runs the decoded command: at a CMD write while IDLE the one the written word decodes to
(also the word `withFetchWord` places), and at the Controller's and the AES core's turns the one the
latched opcode names. -/
def Obligations.StepRunsTheDecodedCommand : Prop :=
  (∀ (s : State) (v : Word) (i : Instr), s.phase = .idle → decode v = .ok i →
    step (s.givenTurn (.host (wrTxn .cmd v)))
      = exec i { s with busRsp := some { rdata := none, resp := .okay } }) ∧
  (∀ (s : State) (nbits w : Nat) (i : Instr), decodeTableWord nbits w = some i →
    step (s.withFetchWord nbits w)
      = exec i { s.abandon with busRsp := some { rdata := none, resp := .okay } }) ∧
  (∀ (s : State) (i : Instr), i.opcode = s.opl →
    (s.phase = .start ∨ s.phase = .issue ∨ s.phase = .finish) →
    step (s.givenTurn .controller) = exec i s) ∧
  (∀ (s : State) (i : Instr) (r : AesReq), i.opcode = s.opl → s.phase = .wait → s.req = some r →
    step (s.givenTurn .aesCore) = exec i { s with aesRsp := some (coreAnswer r) } ∧
    ∀ B : Cipher, step (s.givenTurn (.portResponse B)) = exec i { s with aesRsp := some B })

/-- R123: a response presented without a request is ignored. The other turns of an agent without an
enabled step (R223) change nothing either; that a turn may be wasted is the model's choice, log 9. -/
def Obligations.TurnsWithoutAnEnabledStepChangeNothing : Prop :=
  (∀ (s : State) (B : Cipher), s.req = none →
    step (s.givenTurn (.portResponse B)) = .next s ∧ step (s.givenTurn .aesCore) = .next s) ∧
  (∀ s : State, (s.phase = .idle ∨ s.phase = .wait) → step (s.givenTurn .controller) = .next s) ∧
  (∀ s : State, s.schedule = [] → s.phase = .idle → step s = .next s)

/-! ### Reset -/

/-- R75: the reset values of an instance, for every N_MAX. The first conjunct is the model's choice,
log 3 (DESIGN CHOICE): `State.reset` takes the reference configuration, which has N_MAX = 32 (R6). -/
def Obligations.ResetValues : Prop :=
  State.reset = State.resetFor 32#6 ∧
  ∀ nmax : BitVec 6, ∀ s : State, s = State.resetFor nmax →
    hwcfgWord s = nmax.setWidth 32 ∧ configWord s = 0 ∧ statusWord s = 0 ∧ s.valid = false ∧
    s.code = .none ∧ s.irqEnable = 0 ∧ s.irqStatus = 0 ∧ roundWord s = 0 ∧ s.t = 0 ∧
    s.iv = 0xA6A6A6A6A6A6A6A6#64 ∧ s.kek = 0 ∧ (∀ j, s.w j = 0) ∧ s.a = 0 ∧ s.phase = .idle ∧
    s.opl = 0 ∧ s.nl = 0 ∧ s.kll = 0 ∧ s.ive = 0 ∧ s.req = none ∧ s.irq = false

/-- R450 and R451: reset gives every piece of the block's state its reset value in one step, whatever
the PHASE. (N_MAX is a constant; the schedule and the premise about the core are the model's own,
logs 1, 2, 13.) -/
def Obligations.ResetStopsAnyCommand : Prop :=
  ∀ s : State, step (s.givenTurn .reset) = .next
    { nmax := s.nmax, keylen := 0, n := 0, valid := false, code := .none, irqEnable := 0,
      irqStatus := 0, iv := 0xA6A6A6A6A6A6A6A6#64, kek := 0, mem := [], a := 0, t := 0,
      phase := .idle, opl := 0, nl := 0, kll := 0, ive := 0, req := none, aesRsp := none,
      busRsp := none, schedule := s.schedule, coreLive := s.coreLive }

/-! ### Invariant and safety -/

/-- The reset state, for every N_MAX of R6, meets the invariant. -/
def Obligations.ResetMeetsTheInvariant : Prop :=
  ∀ nmax : BitVec 6, 2 ≤ nmax.toNat → (State.resetFor nmax).Inv

/-- Every step keeps the invariant (R61, R62, R63, R64, R70, R210, R230). -/
def Obligations.StepKeepsTheInvariant : Prop :=
  ∀ s s' : State, s.Inv → step s = .next s' → s'.Inv

/-- No step from a good state stops: every error is a result code or a bus response, never a trap
(R400, R403, R415). -/
def Obligations.StepNeverStops : Prop :=
  ∀ s : State, s.Inv → safeAnswer (step s)

/-- R61: the bound on T, and with it R40's on ROUND. -/
def Obligations.RoundCounterStaysInRange : Prop :=
  ∀ s : State, s.Inv → s.t.toNat ≤ 6 * s.nmax.toNat + 1 ∧ s.t.toNat ≤ 379 ∧
    (s.phase = .idle → s.t = 0) ∧ (s.nl = 1#6 → s.t = 0)

/-- R64, R123, R124 (d): a request stands exactly in WAIT, with the latched key length, which is
never 3, and the whole KEK. -/
def Obligations.RequestStandsExactlyInWait : Prop :=
  ∀ s : State, s.Inv → (s.req ≠ none ↔ s.phase = .wait) ∧
    ∀ r, s.req = some r → r.kl = s.kll ∧ r.kl ≠ 3#2 ∧ r.key = s.kek ∧
      (r.dir = .enc ↔ s.opl = 0x1#4)

/-! ### Whole-machine rules -/

/-- R113: while a command runs, no turn but reset changes its latched inputs, the KEK, the IV or
CONFIG, and a host transaction changes neither the buffer nor the command's position. -/
def Obligations.RunningCommandsInputsAreFrozen : Prop :=
  ∀ (s s' : State) (e : Turn), s.phase ≠ .idle → e ≠ .reset → step (s.givenTurn e) = .next s' →
    (s'.phase ≠ .idle →
      s'.opl = s.opl ∧ s'.nl = s.nl ∧ s'.kll = s.kll ∧ s'.ive = s.ive ∧ s'.kek = s.kek ∧
      s'.iv = s.iv ∧ s'.keylen = s.keylen ∧ s'.n = s.n) ∧
    (∀ t, e = .host t → s'.mem = s.mem ∧ s'.phase = s.phase ∧ s'.a = s.a ∧ s'.t = s.t ∧
      s'.req = s.req ∧ s'.valid = s.valid ∧ s'.code = s.code)

/-- R230: whatever ends a command, the KEK and the working state are zero afterwards. -/
def Obligations.NoKeyOutlivesItsCommand : Prop :=
  ∀ s s' : State, s.phase ≠ .idle → step s = .next s' → s'.phase = .idle →
    s'.kek = 0 ∧ s'.a = 0 ∧ s'.t = 0 ∧ s'.ive = 0 ∧ s'.opl = 0 ∧ s'.nl = 0 ∧ s'.kll = 0 ∧
    s'.req = none

/-- R42, R105 and R72: two states that differ only in the KEK (and in the key of a request on its
way) give the host the same response to every transaction, and differ in nothing else after it. -/
def Obligations.KekIsInvisibleToTheHost : Prop :=
  ∀ (s t : State) (x : BusTxn), s.hideKey = t.hideKey →
    ∃ s' t' : State, step (s.givenTurn (.host x)) = .next s' ∧
      step (t.givenTurn (.host x)) = .next t' ∧ s'.busRsp = t'.busRsp ∧ s'.hideKey = t'.hideKey

/-- R71, R37, R39: which steps write the status flags. -/
def Obligations.FlagsChangeOnlyAtTheirSteps : Prop :=
  ∀ (s s' : State) (e : Turn), e ≠ .reset → step (s.givenTurn e) = .next s' →
    (s'.code ≠ s.code → s.phase ≠ .idle ∧ s'.phase = .idle) ∧
    (s'.valid ≠ s.valid → (s.phase = .idle ∧ s'.phase = .start ∧ s'.valid = false) ∨
      (s.phase ≠ .idle ∧ s'.phase = .idle)) ∧
    (s'.irqDone = true → s.irqDone = false → s.phase ≠ .idle ∧ s'.phase = .idle) ∧
    (s'.irqErr = true → s.irqErr = false → s.phase ≠ .idle ∧ s'.phase = .idle ∧
      s'.code.isError = true) ∧
    (s'.irqDrop = true → s.irqDrop = false → s.phase ≠ .idle ∧ ∃ t, e = .host t)

/-- R410 and R39: a pending event is cleared only by a write of 1 to its bit of IRQ_STATUS, or by
reset. -/
def Obligations.EventsAreClearedOnlyByAcknowledgement : Prop :=
  ∀ (s s' : State) (e : Turn) (k : Nat), step (s.givenTurn e) = .next s' →
    s.irqStatus.getLsbD k = true → s'.irqStatus.getLsbD k = false →
    e = .reset ∨ ∃ v : Word, e = .host (wrTxn .irqStatus v) ∧ v.getLsbD k = true

/-- R230, R402, R410: what every completion posts. -/
def Obligations.CompletionPostsItsEvents : Prop :=
  ∀ (s s' : State) (e : Turn), e ≠ .reset → s.phase ≠ .idle → step (s.givenTurn e) = .next s' →
    s'.phase = .idle →
    s'.irqDone = true ∧ s'.irqErr = (s.irqErr || s'.code.isError) ∧ s'.irqDrop = s.irqDrop ∧
    s'.code ≠ .none ∧ (s'.valid = true → s'.code = .ok) ∧
    s'.iv = s.iv ∧ s'.keylen = s.keylen ∧ s'.n = s.n ∧ s'.irqEnable = s.irqEnable

/-- R51: while a command runs, the slots above its n keep their values, unless the whole buffer is
zeroed in the step that ends it (R286, R320). -/
def Obligations.SlotsAboveNAreUntouched : Prop :=
  ∀ (s s' : State) (e : Turn), s.Inv → s.phase ≠ .idle → e ≠ .reset →
    step (s.givenTurn e) = .next s' →
    (∀ j, s.nl.toNat < j → j ≤ s.nmax.toNat → s'.w j = s.w j) ∨
    (s'.phase = .idle ∧ ∀ j ≤ s.nmax.toNat, s'.w j = 0)

/-- R291: step by step, UNWRAP_STRICT does what UNWRAP does, but for the code and ERR of a failed
check. -/
def Obligations.StrictUnwrapDiffersOnlyInTheFailureCode : Prop :=
  ∀ (s s' : State) (e : Turn), s.phase ≠ .idle → s.opl = 0x2#4 → e ≠ .reset →
    step (s.givenTurn e) = .next s' →
    (s'.phase ≠ .idle → step ({ s with opl := 0x3#4 }.givenTurn e) = .next { s' with opl := 0x3#4 }) ∧
    (s'.phase = .idle →
      (s'.code = .absent →
        step ({ s with opl := 0x3#4 }.givenTurn e)
          = .next { s' with code := .unwrapFailed, irqStatus := s'.irqStatus ||| 0b010#3 }) ∧
      (s'.code ≠ .absent → step ({ s with opl := 0x3#4 }.givenTurn e) = .next s'))

/-- R124 (b), (c) with R121: decryption inverts encryption for the three key lengths, and the answer
does not depend on key bytes beyond the first 16, 24 or 32. -/
def Obligations.AesCoreInvertsAndUsesTheUsedBytes : Prop :=
  (∀ (kl : BitVec 2) (key : Key) (x : Cipher), kl ≠ 3#2 →
    aesDec kl key (aesEnc kl key x) = x ∧ aesEnc kl key (aesDec kl key x) = x) ∧
  (∀ (kl : BitVec 2) (k₁ k₂ : Key) (x : Cipher), kl ≠ 3#2 →
    (∀ b, 256 - 8 * (16 + 8 * kl.toNat) ≤ b → k₁.getLsbD b = k₂.getLsbD b) →
    aesEnc kl k₁ x = aesEnc kl k₂ x ∧ aesDec kl k₁ x = aesDec kl k₂ x)

/-! ### Counting and progress -/

/-- R233: each enabled step of the Controller or of the AES core brings the running command exactly
one step nearer to its end, whatever host transactions fall between. -/
def Obligations.EachOwnStepCountsOne : Prop :=
  ∀ (s s' : State) (e : Turn), s.Inv → s.phase ≠ .idle → step (s.givenTurn e) = .next s' →
    (e = .controller → s.phase ≠ .wait → stepsLeft s = stepsLeft s' + 1) ∧
    ((e = .aesCore ∨ ∃ B, e = .portResponse B) → s.phase = .wait →
      stepsLeft s = stepsLeft s' + 1) ∧
    (∀ t, e = .host t → stepsLeft s' = stepsLeft s) ∧
    (e ≠ .reset → (stepsLeft s' = 0 ↔ s'.phase = .idle))

/-- R232: the AES requests of a command are exactly those that `callsLeft` counts. -/
def Obligations.EachIssueIsOneCall : Prop :=
  ∀ (s s' : State) (e : Turn), s.Inv → s.phase ≠ .idle → e ≠ .reset →
    step (s.givenTurn e) = .next s' →
    (s'.phase = .wait ∧ s.phase = .issue → callsLeft s = callsLeft s' + 1) ∧
    (¬ (s'.phase = .wait ∧ s.phase = .issue) → callsLeft s = callsLeft s')

/-- R233 and R234 for a schedule that is used up: a running command ends after exactly the steps
`stepsLeft` counts, if the core answers. -/
def Obligations.RunningCommandEndsOnTime : Prop :=
  ∀ s : State, s.Inv → s.schedule = [] → s.coreLive = true →
    ∃ s' : State, firstIdle s (stepsLeft s) s'

/-- R234 with any turns before the schedule is used up (fairness and AES_CORE_LIVE hold from there
on, log 2): every running command ends, and no later than this bound. -/
def Obligations.RunningCommandEndsUnderAnySchedule : Prop :=
  ∀ s : State, s.Inv → s.undisturbed = true → s.coreLive = true →
    ∃ (k : Nat) (s' : State), k ≤ s.schedule.length + stepsLeft s ∧ firstIdle s k s'

/-- R125: if the core never answers, PHASE stays WAIT and BUSY stays 1, whatever the host and the
Controller do. -/
def Obligations.SilentCoreHangsTheCommand : Prop :=
  ∀ s : State, s.phase = .wait → s.coreLive = false →
    (∀ e ∈ s.schedule, (∃ t, e = .host t) ∨ e = .controller) →
    ∀ k : Nat, ∃ s' : State, Host.Core.run Sys2Proof.core k s = .next s' ∧
      s'.phase = .wait ∧ s'.busy = true ∧ s'.req = s.req

/-! ### The algorithm -/

/-- R257: a WRAP that passes START leaves the source's wrapped key in W[0..n], for every interleaving
of host transactions and every latency. -/
def Obligations.WrapComputesTheReference : Prop :=
  ∀ (s s' : State) (k : Nat), s.Inv → s.phase = .start → s.opl = 0x1#4 →
    s.lengthsLegal = true → s.undisturbed = true → firstIdle s k s' →
    s'.slots 0 (s.nl.toNat + 1) = refWrap (aesEnc s.kll s.kek) s.ive (s.slots 1 s.nl.toNat) ∧
    (∀ j, s.nl.toNat < j → j ≤ s.nmax.toNat → s'.w j = s.w j) ∧
    s'.code = .ok ∧ s'.valid = true ∧ s'.irqDone = true ∧ s'.kek = 0

/-- R288 and R290: an UNWRAP or UNWRAP_STRICT that passes START completes with OK and the source's
key in W[1..n] exactly when the source's unwrap returns one, and otherwise with ABSENT or
UNWRAP_FAILED and a zero buffer. -/
def Obligations.UnwrapComputesTheReference : Prop :=
  ∀ (s s' : State) (k : Nat), s.Inv → s.phase = .start → (s.opl = 0x2#4 ∨ s.opl = 0x3#4) →
    s.lengthsLegal = true → s.undisturbed = true → firstIdle s k s' →
    match refUnwrap (aesDec s.kll s.kek) s.ive (s.w 0) (s.slots 1 s.nl.toNat) with
    | some p =>
      s'.slots 1 s.nl.toNat = p ∧ s'.w 0 = s.ive ∧ s'.code = .ok ∧ s'.valid = true ∧
      (∀ j, s.nl.toNat < j → j ≤ s.nmax.toNat → s'.w j = s.w j)
    | none =>
      (∀ j ≤ s.nmax.toNat, s'.w j = 0) ∧ s'.valid = false ∧
      (s.opl = 0x2#4 → s'.code = .absent) ∧
      (s.opl = 0x3#4 → s'.code = .unwrapFailed ∧ s'.irqErr = true)

/-- R292 of the algorithm: unwrap returns what wrap was given, for every cipher that decryption
inverts. -/
def Obligations.ReferenceRoundTrip : Prop :=
  ∀ (enc dec : Cipher → Cipher) (iv : Block) (p : List Block),
    (∀ x, dec (enc x) = x) → p ≠ [] →
    ∃ (c0 : Block) (c : List Block), refWrap enc iv p = c0 :: c ∧ c.length = p.length ∧
      refUnwrapCandidate dec c0 c = (iv, p) ∧ refUnwrap dec iv c0 c = some p

/-- R292 of the block: an unwrap of a WRAP's result, with the same used key bytes, IV and n, returns
the WRAP's input, for every interleaving of both. -/
def Obligations.BlockRoundTrip : Prop :=
  ∀ (s s' u u' : State) (k l : Nat),
    s.Inv → s.phase = .start → s.opl = 0x1#4 → s.lengthsLegal = true → s.undisturbed = true →
    firstIdle s k s' →
    u.Inv → u.phase = .start → (u.opl = 0x2#4 ∨ u.opl = 0x3#4) → u.lengthsLegal = true →
    u.undisturbed = true → firstIdle u l u' →
    u.kll = s.kll → u.nl = s.nl → u.ive = s.ive → usedKey u.kll u.kek = usedKey s.kll s.kek →
    u.slots 0 (s.nl.toNat + 1) = s'.slots 0 (s.nl.toNat + 1) →
    u'.code = .ok ∧ u'.valid = true ∧ u'.slots 1 s.nl.toNat = s.slots 1 s.nl.toNat

/-- R293: the same with another effective IV in the unwrap: the mismatch is always detected, and no
key is left. -/
def Obligations.IvMismatchIsDetected : Prop :=
  ∀ (s s' u u' : State) (k l : Nat),
    s.Inv → s.phase = .start → s.opl = 0x1#4 → s.lengthsLegal = true → s.undisturbed = true →
    firstIdle s k s' →
    u.Inv → u.phase = .start → (u.opl = 0x2#4 ∨ u.opl = 0x3#4) → u.lengthsLegal = true →
    u.undisturbed = true → firstIdle u l u' →
    u.kll = s.kll → u.nl = s.nl → u.ive ≠ s.ive → usedKey u.kll u.kek = usedKey s.kll s.kek →
    u.slots 0 (s.nl.toNat + 1) = s'.slots 0 (s.nl.toNat + 1) →
    (u.opl = 0x2#4 → u'.code = .absent) ∧ (u.opl = 0x3#4 → u'.code = .unwrapFailed) ∧
    u'.valid = false ∧ ∀ j ≤ u.nmax.toNat, u'.w j = 0

/-! ### Whole commands, from acceptance to result -/

/-- R250, R232, R233: WRAP from its acceptance, with no other turns falling between. -/
def Obligations.WrapRunsFromAcceptanceToResult : Prop :=
  ∀ (b : Bool) (s : State), s.Inv → s.phase = .idle → s.schedule = [] → s.coreLive = true →
    s.keylen ≠ 3#2 → s.n ≠ 0#6 → s.n.toNat ≤ s.nmax.toNat →
    ∃ s₁ s₂ : State, exec (.wrap b) s = .next s₁ ∧
      firstIdle s₁ (if s.n = 1#6 then 4 else 12 * s.n.toNat + 2) s₂ ∧
      s₂.slots 0 (s.n.toNat + 1)
        = refWrap (aesEnc s.keylen s.kek) (if b then s.iv else 0xA6A6A6A6A6A6A6A6#64)
            (s.slots 1 s.n.toNat) ∧
      statusWord s₂ = 0x12#32

/-- R280, R290, R232, R233: UNWRAP and UNWRAP_STRICT from their acceptance. -/
def Obligations.UnwrapRunsFromAcceptanceToResult : Prop :=
  ∀ (b : Bool) (i : Instr) (s : State), (i = .unwrap b ∨ i = .unwrapStrict b) →
    s.Inv → s.phase = .idle → s.schedule = [] → s.coreLive = true →
    s.keylen ≠ 3#2 → s.n ≠ 0#6 → s.n.toNat ≤ s.nmax.toNat →
    ∃ s₁ s₂ : State, exec i s = .next s₁ ∧
      firstIdle s₁ (if s.n = 1#6 then 4 else 12 * s.n.toNat + 2) s₂ ∧
      match refUnwrap (aesDec s.keylen s.kek) (if b then s.iv else 0xA6A6A6A6A6A6A6A6#64) (s.w 0)
          (s.slots 1 s.n.toNat) with
      | some p => s₂.slots 1 s.n.toNat = p ∧ statusWord s₂ = 0x12#32
      | none => (∀ j ≤ s.nmax.toNat, s₂.w j = 0) ∧
          statusWord s₂ = if i = .unwrap b then 0x20#32 else 0x30#32

/-- R320, R321, R152: CLEAR from its acceptance: one step, and the same end for both values of
IVSEL. -/
def Obligations.ClearRunsFromAcceptanceToResult : Prop :=
  ∀ (b : Bool) (s : State), s.Inv → s.phase = .idle → s.schedule = [] →
    ∃ s₁ s₂ : State, exec (.clear b) s = .next s₁ ∧ firstIdle s₁ 1 s₂ ∧
      s₂ = { s with
        mem := [], code := .ok, valid := false, irqStatus := s.irqStatus ||| 0b001#3, kek := 0 } ∧
      statusWord s₂ = 0x10#32
end

