-- ==== Sys2Proof/Laws/State.lean ====
section
/-! SUPPORT. One lemma per field per update of the state, so that no later proof unfolds a record
update. -/

namespace Sys2Proof.Machine

open Sys2Proof

/-! ### setW -/

@[simp] theorem setW_nmax (s : State) (j : Nat) (v : Block) : (s.setW j v).nmax = s.nmax := rfl
@[simp] theorem setW_keylen (s : State) (j : Nat) (v : Block) :
    (s.setW j v).keylen = s.keylen := rfl
@[simp] theorem setW_n (s : State) (j : Nat) (v : Block) : (s.setW j v).n = s.n := rfl
@[simp] theorem setW_valid (s : State) (j : Nat) (v : Block) : (s.setW j v).valid = s.valid := rfl
@[simp] theorem setW_code (s : State) (j : Nat) (v : Block) : (s.setW j v).code = s.code := rfl
@[simp] theorem setW_irqEnable (s : State) (j : Nat) (v : Block) :
    (s.setW j v).irqEnable = s.irqEnable := rfl
@[simp] theorem setW_irqStatus (s : State) (j : Nat) (v : Block) :
    (s.setW j v).irqStatus = s.irqStatus := rfl
@[simp] theorem setW_iv (s : State) (j : Nat) (v : Block) : (s.setW j v).iv = s.iv := rfl
@[simp] theorem setW_kek (s : State) (j : Nat) (v : Block) : (s.setW j v).kek = s.kek := rfl
@[simp] theorem setW_mem (s : State) (j : Nat) (v : Block) :
    (s.setW j v).mem = Memory.setSlot s.mem j v := rfl
@[simp] theorem setW_a (s : State) (j : Nat) (v : Block) : (s.setW j v).a = s.a := rfl
@[simp] theorem setW_t (s : State) (j : Nat) (v : Block) : (s.setW j v).t = s.t := rfl
@[simp] theorem setW_phase (s : State) (j : Nat) (v : Block) : (s.setW j v).phase = s.phase := rfl
@[simp] theorem setW_opl (s : State) (j : Nat) (v : Block) : (s.setW j v).opl = s.opl := rfl
@[simp] theorem setW_nl (s : State) (j : Nat) (v : Block) : (s.setW j v).nl = s.nl := rfl
@[simp] theorem setW_kll (s : State) (j : Nat) (v : Block) : (s.setW j v).kll = s.kll := rfl
@[simp] theorem setW_ive (s : State) (j : Nat) (v : Block) : (s.setW j v).ive = s.ive := rfl
@[simp] theorem setW_req (s : State) (j : Nat) (v : Block) : (s.setW j v).req = s.req := rfl
@[simp] theorem setW_aesRsp (s : State) (j : Nat) (v : Block) :
    (s.setW j v).aesRsp = s.aesRsp := rfl
@[simp] theorem setW_busRsp (s : State) (j : Nat) (v : Block) :
    (s.setW j v).busRsp = s.busRsp := rfl
@[simp] theorem setW_schedule (s : State) (j : Nat) (v : Block) :
    (s.setW j v).schedule = s.schedule := rfl
@[simp] theorem setW_coreLive (s : State) (j : Nat) (v : Block) :
    (s.setW j v).coreLive = s.coreLive := rfl

/-! ### scrub -/

@[simp] theorem scrub_nmax (s : State) : (s.scrub).nmax = s.nmax := rfl
@[simp] theorem scrub_keylen (s : State) : (s.scrub).keylen = s.keylen := rfl
@[simp] theorem scrub_n (s : State) : (s.scrub).n = s.n := rfl
@[simp] theorem scrub_valid (s : State) : (s.scrub).valid = s.valid := rfl
@[simp] theorem scrub_code (s : State) : (s.scrub).code = s.code := rfl
@[simp] theorem scrub_irqEnable (s : State) : (s.scrub).irqEnable = s.irqEnable := rfl
@[simp] theorem scrub_irqStatus (s : State) : (s.scrub).irqStatus = s.irqStatus := rfl
@[simp] theorem scrub_iv (s : State) : (s.scrub).iv = s.iv := rfl
@[simp] theorem scrub_kek (s : State) : (s.scrub).kek = s.kek := rfl
@[simp] theorem scrub_mem (s : State) : (s.scrub).mem = Memory.scrub s.nmax.toNat s.mem := rfl
@[simp] theorem scrub_a (s : State) : (s.scrub).a = s.a := rfl
@[simp] theorem scrub_t (s : State) : (s.scrub).t = s.t := rfl
@[simp] theorem scrub_phase (s : State) : (s.scrub).phase = s.phase := rfl
@[simp] theorem scrub_opl (s : State) : (s.scrub).opl = s.opl := rfl
@[simp] theorem scrub_nl (s : State) : (s.scrub).nl = s.nl := rfl
@[simp] theorem scrub_kll (s : State) : (s.scrub).kll = s.kll := rfl
@[simp] theorem scrub_ive (s : State) : (s.scrub).ive = s.ive := rfl
@[simp] theorem scrub_req (s : State) : (s.scrub).req = s.req := rfl
@[simp] theorem scrub_aesRsp (s : State) : (s.scrub).aesRsp = s.aesRsp := rfl
@[simp] theorem scrub_busRsp (s : State) : (s.scrub).busRsp = s.busRsp := rfl
@[simp] theorem scrub_schedule (s : State) : (s.scrub).schedule = s.schedule := rfl
@[simp] theorem scrub_coreLive (s : State) : (s.scrub).coreLive = s.coreLive := rfl

/-! ### accept -/

@[simp] theorem accept_nmax (op : BitVec 4) (iv : Bool) (s : State) :
    (accept op iv s).nmax = s.nmax := rfl
@[simp] theorem accept_keylen (op : BitVec 4) (iv : Bool) (s : State) :
    (accept op iv s).keylen = s.keylen := rfl
@[simp] theorem accept_n (op : BitVec 4) (iv : Bool) (s : State) : (accept op iv s).n = s.n := rfl
@[simp] theorem accept_valid (op : BitVec 4) (iv : Bool) (s : State) :
    (accept op iv s).valid = false := rfl
@[simp] theorem accept_code (op : BitVec 4) (iv : Bool) (s : State) :
    (accept op iv s).code = s.code := rfl
@[simp] theorem accept_irqEnable (op : BitVec 4) (iv : Bool) (s : State) :
    (accept op iv s).irqEnable = s.irqEnable := rfl
@[simp] theorem accept_irqStatus (op : BitVec 4) (iv : Bool) (s : State) :
    (accept op iv s).irqStatus = s.irqStatus := rfl
@[simp] theorem accept_iv (op : BitVec 4) (iv : Bool) (s : State) :
    (accept op iv s).iv = s.iv := rfl
@[simp] theorem accept_kek (op : BitVec 4) (iv : Bool) (s : State) :
    (accept op iv s).kek = s.kek := rfl
@[simp] theorem accept_mem (op : BitVec 4) (iv : Bool) (s : State) :
    (accept op iv s).mem = s.mem := rfl
@[simp] theorem accept_a (op : BitVec 4) (iv : Bool) (s : State) : (accept op iv s).a = s.a := rfl
@[simp] theorem accept_t (op : BitVec 4) (iv : Bool) (s : State) : (accept op iv s).t = s.t := rfl
@[simp] theorem accept_phase (op : BitVec 4) (iv : Bool) (s : State) :
    (accept op iv s).phase = .start := rfl
@[simp] theorem accept_opl (op : BitVec 4) (iv : Bool) (s : State) :
    (accept op iv s).opl = op := rfl
@[simp] theorem accept_nl (op : BitVec 4) (iv : Bool) (s : State) : (accept op iv s).nl = s.n := rfl
@[simp] theorem accept_kll (op : BitVec 4) (iv : Bool) (s : State) :
    (accept op iv s).kll = s.keylen := rfl
@[simp] theorem accept_ive (op : BitVec 4) (iv : Bool) (s : State) :
    (accept op iv s).ive = effectiveIv iv s := rfl
@[simp] theorem accept_req (op : BitVec 4) (iv : Bool) (s : State) :
    (accept op iv s).req = s.req := rfl
@[simp] theorem accept_aesRsp (op : BitVec 4) (iv : Bool) (s : State) :
    (accept op iv s).aesRsp = s.aesRsp := rfl
@[simp] theorem accept_busRsp (op : BitVec 4) (iv : Bool) (s : State) :
    (accept op iv s).busRsp = s.busRsp := rfl
@[simp] theorem accept_schedule (op : BitVec 4) (iv : Bool) (s : State) :
    (accept op iv s).schedule = s.schedule := rfl
@[simp] theorem accept_coreLive (op : BitVec 4) (iv : Bool) (s : State) :
    (accept op iv s).coreLive = s.coreLive := rfl

/-! ### complete -/

@[simp] theorem complete_nmax (c : ResultCode) (v : Bool) (s : State) :
    (complete c v s).nmax = s.nmax := rfl
@[simp] theorem complete_keylen (c : ResultCode) (v : Bool) (s : State) :
    (complete c v s).keylen = s.keylen := rfl
@[simp] theorem complete_n (c : ResultCode) (v : Bool) (s : State) : (complete c v s).n = s.n := rfl
@[simp] theorem complete_valid (c : ResultCode) (v : Bool) (s : State) :
    (complete c v s).valid = v := rfl
@[simp] theorem complete_code (c : ResultCode) (v : Bool) (s : State) :
    (complete c v s).code = c := rfl
@[simp] theorem complete_irqEnable (c : ResultCode) (v : Bool) (s : State) :
    (complete c v s).irqEnable = s.irqEnable := rfl
@[simp] theorem complete_irqStatus (c : ResultCode) (v : Bool) (s : State) :
    (complete c v s).irqStatus = completionIrq c s.irqStatus := rfl
@[simp] theorem complete_iv (c : ResultCode) (v : Bool) (s : State) :
    (complete c v s).iv = s.iv := rfl
@[simp] theorem complete_kek (c : ResultCode) (v : Bool) (s : State) :
    (complete c v s).kek = 0 := rfl
@[simp] theorem complete_mem (c : ResultCode) (v : Bool) (s : State) :
    (complete c v s).mem = s.mem := rfl
@[simp] theorem complete_a (c : ResultCode) (v : Bool) (s : State) : (complete c v s).a = 0 := rfl
@[simp] theorem complete_t (c : ResultCode) (v : Bool) (s : State) : (complete c v s).t = 0 := rfl
@[simp] theorem complete_phase (c : ResultCode) (v : Bool) (s : State) :
    (complete c v s).phase = .idle := rfl
@[simp] theorem complete_opl (c : ResultCode) (v : Bool) (s : State) :
    (complete c v s).opl = 0 := rfl
@[simp] theorem complete_nl (c : ResultCode) (v : Bool) (s : State) : (complete c v s).nl = 0 := rfl
@[simp] theorem complete_kll (c : ResultCode) (v : Bool) (s : State) :
    (complete c v s).kll = 0 := rfl
@[simp] theorem complete_ive (c : ResultCode) (v : Bool) (s : State) :
    (complete c v s).ive = 0 := rfl
@[simp] theorem complete_req (c : ResultCode) (v : Bool) (s : State) :
    (complete c v s).req = none := rfl
@[simp] theorem complete_aesRsp (c : ResultCode) (v : Bool) (s : State) :
    (complete c v s).aesRsp = s.aesRsp := rfl
@[simp] theorem complete_busRsp (c : ResultCode) (v : Bool) (s : State) :
    (complete c v s).busRsp = s.busRsp := rfl
@[simp] theorem complete_schedule (c : ResultCode) (v : Bool) (s : State) :
    (complete c v s).schedule = s.schedule := rfl
@[simp] theorem complete_coreLive (c : ResultCode) (v : Bool) (s : State) :
    (complete c v s).coreLive = s.coreLive := rfl

/-! ### acknowledge -/

@[simp] theorem acknowledge_nmax (v : Word) (s : State) : (acknowledge v s).nmax = s.nmax := rfl
@[simp] theorem acknowledge_keylen (v : Word) (s : State) :
    (acknowledge v s).keylen = s.keylen := rfl
@[simp] theorem acknowledge_n (v : Word) (s : State) : (acknowledge v s).n = s.n := rfl
@[simp] theorem acknowledge_valid (v : Word) (s : State) : (acknowledge v s).valid = s.valid := rfl
@[simp] theorem acknowledge_code (v : Word) (s : State) : (acknowledge v s).code = s.code := rfl
@[simp] theorem acknowledge_irqEnable (v : Word) (s : State) :
    (acknowledge v s).irqEnable = s.irqEnable := rfl
@[simp] theorem acknowledge_irqStatus (v : Word) (s : State) :
    (acknowledge v s).irqStatus = acknowledgeIrq v s.irqStatus := rfl
@[simp] theorem acknowledge_iv (v : Word) (s : State) : (acknowledge v s).iv = s.iv := rfl
@[simp] theorem acknowledge_kek (v : Word) (s : State) : (acknowledge v s).kek = s.kek := rfl
@[simp] theorem acknowledge_mem (v : Word) (s : State) : (acknowledge v s).mem = s.mem := rfl
@[simp] theorem acknowledge_a (v : Word) (s : State) : (acknowledge v s).a = s.a := rfl
@[simp] theorem acknowledge_t (v : Word) (s : State) : (acknowledge v s).t = s.t := rfl
@[simp] theorem acknowledge_phase (v : Word) (s : State) : (acknowledge v s).phase = s.phase := rfl
@[simp] theorem acknowledge_opl (v : Word) (s : State) : (acknowledge v s).opl = s.opl := rfl
@[simp] theorem acknowledge_nl (v : Word) (s : State) : (acknowledge v s).nl = s.nl := rfl
@[simp] theorem acknowledge_kll (v : Word) (s : State) : (acknowledge v s).kll = s.kll := rfl
@[simp] theorem acknowledge_ive (v : Word) (s : State) : (acknowledge v s).ive = s.ive := rfl
@[simp] theorem acknowledge_req (v : Word) (s : State) : (acknowledge v s).req = s.req := rfl
@[simp] theorem acknowledge_aesRsp (v : Word) (s : State) :
    (acknowledge v s).aesRsp = s.aesRsp := rfl
@[simp] theorem acknowledge_busRsp (v : Word) (s : State) :
    (acknowledge v s).busRsp = s.busRsp := rfl
@[simp] theorem acknowledge_schedule (v : Word) (s : State) :
    (acknowledge v s).schedule = s.schedule := rfl
@[simp] theorem acknowledge_coreLive (v : Word) (s : State) :
    (acknowledge v s).coreLive = s.coreLive := rfl

/-! ### dropWrite -/

@[simp] theorem dropWrite_nmax (s : State) : (dropWrite s).nmax = s.nmax := rfl
@[simp] theorem dropWrite_keylen (s : State) : (dropWrite s).keylen = s.keylen := rfl
@[simp] theorem dropWrite_n (s : State) : (dropWrite s).n = s.n := rfl
@[simp] theorem dropWrite_valid (s : State) : (dropWrite s).valid = s.valid := rfl
@[simp] theorem dropWrite_code (s : State) : (dropWrite s).code = s.code := rfl
@[simp] theorem dropWrite_irqEnable (s : State) : (dropWrite s).irqEnable = s.irqEnable := rfl
@[simp] theorem dropWrite_irqStatus (s : State) :
    (dropWrite s).irqStatus = dropIrq s.irqStatus := rfl
@[simp] theorem dropWrite_iv (s : State) : (dropWrite s).iv = s.iv := rfl
@[simp] theorem dropWrite_kek (s : State) : (dropWrite s).kek = s.kek := rfl
@[simp] theorem dropWrite_mem (s : State) : (dropWrite s).mem = s.mem := rfl
@[simp] theorem dropWrite_a (s : State) : (dropWrite s).a = s.a := rfl
@[simp] theorem dropWrite_t (s : State) : (dropWrite s).t = s.t := rfl
@[simp] theorem dropWrite_phase (s : State) : (dropWrite s).phase = s.phase := rfl
@[simp] theorem dropWrite_opl (s : State) : (dropWrite s).opl = s.opl := rfl
@[simp] theorem dropWrite_nl (s : State) : (dropWrite s).nl = s.nl := rfl
@[simp] theorem dropWrite_kll (s : State) : (dropWrite s).kll = s.kll := rfl
@[simp] theorem dropWrite_ive (s : State) : (dropWrite s).ive = s.ive := rfl
@[simp] theorem dropWrite_req (s : State) : (dropWrite s).req = s.req := rfl
@[simp] theorem dropWrite_aesRsp (s : State) : (dropWrite s).aesRsp = s.aesRsp := rfl
@[simp] theorem dropWrite_busRsp (s : State) : (dropWrite s).busRsp = s.busRsp := rfl
@[simp] theorem dropWrite_schedule (s : State) : (dropWrite s).schedule = s.schedule := rfl
@[simp] theorem dropWrite_coreLive (s : State) : (dropWrite s).coreLive = s.coreLive := rfl

/-! ### answer -/

@[simp] theorem answer_nmax (d : Option Word) (r : Resp) (s : State) :
    (answer d r s).nmax = s.nmax := rfl
@[simp] theorem answer_keylen (d : Option Word) (r : Resp) (s : State) :
    (answer d r s).keylen = s.keylen := rfl
@[simp] theorem answer_n (d : Option Word) (r : Resp) (s : State) : (answer d r s).n = s.n := rfl
@[simp] theorem answer_valid (d : Option Word) (r : Resp) (s : State) :
    (answer d r s).valid = s.valid := rfl
@[simp] theorem answer_code (d : Option Word) (r : Resp) (s : State) :
    (answer d r s).code = s.code := rfl
@[simp] theorem answer_irqEnable (d : Option Word) (r : Resp) (s : State) :
    (answer d r s).irqEnable = s.irqEnable := rfl
@[simp] theorem answer_irqStatus (d : Option Word) (r : Resp) (s : State) :
    (answer d r s).irqStatus = s.irqStatus := rfl
@[simp] theorem answer_iv (d : Option Word) (r : Resp) (s : State) : (answer d r s).iv = s.iv := rfl
@[simp] theorem answer_kek (d : Option Word) (r : Resp) (s : State) :
    (answer d r s).kek = s.kek := rfl
@[simp] theorem answer_mem (d : Option Word) (r : Resp) (s : State) :
    (answer d r s).mem = s.mem := rfl
@[simp] theorem answer_a (d : Option Word) (r : Resp) (s : State) : (answer d r s).a = s.a := rfl
@[simp] theorem answer_t (d : Option Word) (r : Resp) (s : State) : (answer d r s).t = s.t := rfl
@[simp] theorem answer_phase (d : Option Word) (r : Resp) (s : State) :
    (answer d r s).phase = s.phase := rfl
@[simp] theorem answer_opl (d : Option Word) (r : Resp) (s : State) :
    (answer d r s).opl = s.opl := rfl
@[simp] theorem answer_nl (d : Option Word) (r : Resp) (s : State) : (answer d r s).nl = s.nl := rfl
@[simp] theorem answer_kll (d : Option Word) (r : Resp) (s : State) :
    (answer d r s).kll = s.kll := rfl
@[simp] theorem answer_ive (d : Option Word) (r : Resp) (s : State) :
    (answer d r s).ive = s.ive := rfl
@[simp] theorem answer_req (d : Option Word) (r : Resp) (s : State) :
    (answer d r s).req = s.req := rfl
@[simp] theorem answer_aesRsp (d : Option Word) (r : Resp) (s : State) :
    (answer d r s).aesRsp = s.aesRsp := rfl
@[simp] theorem answer_busRsp (d : Option Word) (r : Resp) (s : State) :
    (answer d r s).busRsp = some { rdata := d, resp := r } := rfl
@[simp] theorem answer_schedule (d : Option Word) (r : Resp) (s : State) :
    (answer d r s).schedule = s.schedule := rfl
@[simp] theorem answer_coreLive (d : Option Word) (r : Resp) (s : State) :
    (answer d r s).coreLive = s.coreLive := rfl

/-! ### seed -/

@[simp] theorem seed_nmax (x : Block) (f : BitVec 64) (s : State) :
    (seed x f s).nmax = s.nmax := rfl
@[simp] theorem seed_keylen (x : Block) (f : BitVec 64) (s : State) :
    (seed x f s).keylen = s.keylen := rfl
@[simp] theorem seed_n (x : Block) (f : BitVec 64) (s : State) : (seed x f s).n = s.n := rfl
@[simp] theorem seed_valid (x : Block) (f : BitVec 64) (s : State) :
    (seed x f s).valid = s.valid := rfl
@[simp] theorem seed_code (x : Block) (f : BitVec 64) (s : State) :
    (seed x f s).code = s.code := rfl
@[simp] theorem seed_irqEnable (x : Block) (f : BitVec 64) (s : State) :
    (seed x f s).irqEnable = s.irqEnable := rfl
@[simp] theorem seed_irqStatus (x : Block) (f : BitVec 64) (s : State) :
    (seed x f s).irqStatus = s.irqStatus := rfl
@[simp] theorem seed_iv (x : Block) (f : BitVec 64) (s : State) : (seed x f s).iv = s.iv := rfl
@[simp] theorem seed_kek (x : Block) (f : BitVec 64) (s : State) : (seed x f s).kek = s.kek := rfl
@[simp] theorem seed_mem (x : Block) (f : BitVec 64) (s : State) : (seed x f s).mem = s.mem := rfl
@[simp] theorem seed_a (x : Block) (f : BitVec 64) (s : State) : (seed x f s).a = x := rfl
@[simp] theorem seed_t (x : Block) (f : BitVec 64) (s : State) :
    (seed x f s).t = if s.nl = 1#6 then 0#64 else f := rfl
@[simp] theorem seed_phase (x : Block) (f : BitVec 64) (s : State) :
    (seed x f s).phase = .issue := rfl
@[simp] theorem seed_opl (x : Block) (f : BitVec 64) (s : State) : (seed x f s).opl = s.opl := rfl
@[simp] theorem seed_nl (x : Block) (f : BitVec 64) (s : State) : (seed x f s).nl = s.nl := rfl
@[simp] theorem seed_kll (x : Block) (f : BitVec 64) (s : State) : (seed x f s).kll = s.kll := rfl
@[simp] theorem seed_ive (x : Block) (f : BitVec 64) (s : State) : (seed x f s).ive = s.ive := rfl
@[simp] theorem seed_req (x : Block) (f : BitVec 64) (s : State) : (seed x f s).req = s.req := rfl
@[simp] theorem seed_aesRsp (x : Block) (f : BitVec 64) (s : State) :
    (seed x f s).aesRsp = s.aesRsp := rfl
@[simp] theorem seed_busRsp (x : Block) (f : BitVec 64) (s : State) :
    (seed x f s).busRsp = s.busRsp := rfl
@[simp] theorem seed_schedule (x : Block) (f : BitVec 64) (s : State) :
    (seed x f s).schedule = s.schedule := rfl
@[simp] theorem seed_coreLive (x : Block) (f : BitVec 64) (s : State) :
    (seed x f s).coreLive = s.coreLive := rfl

/-! ### issue -/

@[simp] theorem issue_nmax (d : Dir) (b : Cipher) (s : State) : (issue d b s).nmax = s.nmax := rfl
@[simp] theorem issue_keylen (d : Dir) (b : Cipher) (s : State) :
    (issue d b s).keylen = s.keylen := rfl
@[simp] theorem issue_n (d : Dir) (b : Cipher) (s : State) : (issue d b s).n = s.n := rfl
@[simp] theorem issue_valid (d : Dir) (b : Cipher) (s : State) :
    (issue d b s).valid = s.valid := rfl
@[simp] theorem issue_code (d : Dir) (b : Cipher) (s : State) : (issue d b s).code = s.code := rfl
@[simp] theorem issue_irqEnable (d : Dir) (b : Cipher) (s : State) :
    (issue d b s).irqEnable = s.irqEnable := rfl
@[simp] theorem issue_irqStatus (d : Dir) (b : Cipher) (s : State) :
    (issue d b s).irqStatus = s.irqStatus := rfl
@[simp] theorem issue_iv (d : Dir) (b : Cipher) (s : State) : (issue d b s).iv = s.iv := rfl
@[simp] theorem issue_kek (d : Dir) (b : Cipher) (s : State) : (issue d b s).kek = s.kek := rfl
@[simp] theorem issue_mem (d : Dir) (b : Cipher) (s : State) : (issue d b s).mem = s.mem := rfl
@[simp] theorem issue_a (d : Dir) (b : Cipher) (s : State) : (issue d b s).a = s.a := rfl
@[simp] theorem issue_t (d : Dir) (b : Cipher) (s : State) : (issue d b s).t = s.t := rfl
@[simp] theorem issue_phase (d : Dir) (b : Cipher) (s : State) : (issue d b s).phase = .wait := rfl
@[simp] theorem issue_opl (d : Dir) (b : Cipher) (s : State) : (issue d b s).opl = s.opl := rfl
@[simp] theorem issue_nl (d : Dir) (b : Cipher) (s : State) : (issue d b s).nl = s.nl := rfl
@[simp] theorem issue_kll (d : Dir) (b : Cipher) (s : State) : (issue d b s).kll = s.kll := rfl
@[simp] theorem issue_ive (d : Dir) (b : Cipher) (s : State) : (issue d b s).ive = s.ive := rfl
@[simp] theorem issue_req (d : Dir) (b : Cipher) (s : State) :
    (issue d b s).req = some { dir := d, kl := s.kll, key := s.kek, blk := b } := rfl
@[simp] theorem issue_aesRsp (d : Dir) (b : Cipher) (s : State) :
    (issue d b s).aesRsp = s.aesRsp := rfl
@[simp] theorem issue_busRsp (d : Dir) (b : Cipher) (s : State) :
    (issue d b s).busRsp = s.busRsp := rfl
@[simp] theorem issue_schedule (d : Dir) (b : Cipher) (s : State) :
    (issue d b s).schedule = s.schedule := rfl
@[simp] theorem issue_coreLive (d : Dir) (b : Cipher) (s : State) :
    (issue d b s).coreLive = s.coreLive := rfl

/-! ### resetBlock -/

@[simp] theorem resetBlock_schedule (s : State) : (resetBlock s).schedule = s.schedule := rfl
@[simp] theorem resetBlock_coreLive (s : State) : (resetBlock s).coreLive = s.coreLive := rfl
@[simp] theorem resetBlock_nmax (s : State) : (resetBlock s).nmax = s.nmax := rfl
@[simp] theorem resetBlock_phase (s : State) : (resetBlock s).phase = .idle := rfl
@[simp] theorem resetBlock_mem (s : State) : (resetBlock s).mem = [] := rfl

end Sys2Proof.Machine
end

