-- ==== Sys2Proof/Laws/Memory.lean ====
section
/-! SUPPORT. The laws of the data buffer: reads after writes, the canonical form, words and slots,
scrubbing. -/

namespace Sys2Proof.Machine

open Sys2Proof

/-! ### Bytes -/

@[simp] theorem Memory.readByte_nil (x : Nat) : Memory.readByte [] x = 0#8 := rfl

theorem Memory.readByte_cons (c : Host.Cell) (m : Memory) (x : Nat) :
    Memory.readByte (c :: m) x = if c.1 = x then c.2 else Memory.readByte m x := rfl

theorem Memory.readByte_filter (m : Memory) (p : Nat → Bool) (x : Nat) :
    Memory.readByte (m.filter (fun c => p c.1)) x = if p x then Memory.readByte m x else 0#8 := by
  induction m with
  | nil => simp
  | cons c m ih =>
    by_cases hc : p c.1 <;> by_cases hx : c.1 = x <;> simp_all [Memory.readByte_cons]

theorem Memory.readByte_erase (m : Memory) (x y : Nat) :
    Memory.readByte (Memory.erase m x) y = if y = x then 0#8 else Memory.readByte m y := by
  have h := Memory.readByte_filter m (fun z => decide (z ≠ x)) y
  by_cases hy : y = x <;> simp_all [Memory.erase]

theorem Memory.insert_cons (x : Nat) (b : Byte) (c : Host.Cell) (m : Memory) :
    Memory.insert x b (c :: m) = if x < c.1 then (x, b) :: c :: m else c :: Memory.insert x b m := rfl

theorem Memory.readByte_insert (m : Memory) (x y : Nat) (b : Byte)
    (h : ∀ c ∈ m, c.1 ≠ x) :
    Memory.readByte (Memory.insert x b m) y = if y = x then b else Memory.readByte m y := by
  induction m with
  | nil => by_cases hy : y = x <;> simp [Memory.insert, Memory.readByte, hy, Ne.symm]
  | cons c m ih =>
    have hc : c.1 ≠ x := h c (by simp)
    have ih := ih (fun d hd => h d (by simp [hd]))
    rw [Memory.insert_cons]
    split_ifs with hx hy hy <;> simp only [Memory.readByte_cons, ih] <;> split_ifs <;>
      first | rfl | omega

theorem Memory.mem_erase {m : Memory} {x : Nat} {c : Host.Cell} :
    c ∈ Memory.erase m x ↔ c ∈ m ∧ c.1 ≠ x := by
  simp [Memory.erase]

/-- A byte write changes exactly the byte it writes. -/
theorem Memory.readByte_writeByte (m : Memory) (x y : Nat) (b : Byte) :
    Memory.readByte (Memory.writeByte m x b) y = if y = x then b else Memory.readByte m y := by
  unfold Memory.writeByte
  split
  · rename_i hb; rw [Memory.readByte_erase, hb]; rfl
  · rw [Memory.readByte_insert _ _ _ _ (fun c hc => (Memory.mem_erase.1 hc).2),
      Memory.readByte_erase]
    split <;> simp_all

/-! ### The canonical form -/

theorem Memory.wf_iff (m : Memory) : Memory.wf m = true ↔
    m.Pairwise (fun c d => c.1 < d.1) ∧ ∀ c ∈ m, c.2 ≠ 0#8 := by
  rw [Memory.wf, Bool.and_eq_true, decide_eq_true_eq, List.all_eq_true]
  exact and_congr_right fun _ => forall₂_congr fun _ _ => decide_eq_true_iff

@[simp] theorem Memory.wf_nil : Memory.wf [] = true := rfl

theorem Memory.wf_filter (m : Memory) (p : Host.Cell → Bool) (h : Memory.wf m = true) :
    Memory.wf (m.filter p) = true := by
  rw [Memory.wf_iff] at *
  exact ⟨h.1.sublist List.filter_sublist, fun c hc => h.2 c (List.mem_filter.1 hc).1⟩

theorem Memory.mem_insert {m : Memory} {x : Nat} {b : Byte} {c : Host.Cell} :
    c ∈ Memory.insert x b m ↔ c = (x, b) ∨ c ∈ m := by
  induction m with
  | nil => simp [Memory.insert]
  | cons d m ih =>
    by_cases hx : x < d.1
    · simp [Memory.insert, hx]
    · simp only [Memory.insert, hx, if_false, List.mem_cons, ih]; tauto

theorem Memory.wf_insert (m : Memory) (x : Nat) (b : Byte) (hb : b ≠ 0#8)
    (hx : ∀ c ∈ m, c.1 ≠ x) (h : Memory.wf m = true) : Memory.wf (Memory.insert x b m) = true := by
  rw [Memory.wf_iff] at *
  refine ⟨?_, fun c hc => ?_⟩
  · obtain ⟨hp, -⟩ := h
    induction m with
    | nil => simp [Memory.insert]
    | cons d m ih =>
      rw [List.pairwise_cons] at hp
      have hd : d.1 ≠ x := hx d (by simp)
      by_cases hlt : x < d.1
      · simp only [Memory.insert, hlt, if_true, List.pairwise_cons, List.mem_cons]
        refine ⟨fun c hc => ?_, hp⟩
        rcases hc with rfl | hc
        · exact hlt
        · exact hlt.trans (hp.1 c hc)
      · simp only [Memory.insert, hlt, if_false, List.pairwise_cons]
        refine ⟨fun c hc => ?_, ih (fun c hc => hx c (by simp [hc])) hp.2⟩
        rcases Memory.mem_insert.1 hc with rfl | hc
        · show d.1 < x; omega
        · exact hp.1 c hc
  · rcases Memory.mem_insert.1 hc with rfl | hc
    · exact hb
    · exact h.2 c hc

theorem Memory.wf_erase (m : Memory) (x : Nat) (h : Memory.wf m = true) :
    Memory.wf (Memory.erase m x) = true := Memory.wf_filter _ _ h

/-- A byte write keeps the canonical form. -/
theorem Memory.wf_writeByte (m : Memory) (x : Nat) (b : Byte) (h : Memory.wf m = true) :
    Memory.wf (Memory.writeByte m x b) = true := by
  unfold Memory.writeByte
  split
  · exact Memory.wf_erase _ _ h
  · rename_i hb
    exact Memory.wf_insert _ _ _ hb (fun c hc => (Memory.mem_erase.1 hc).2) (Memory.wf_erase _ _ h)

/-- A word write keeps the canonical form. -/
theorem Memory.wf_writeWord (m : Memory) (x : Nat) (v : Word) (h : Memory.wf m = true) :
    Memory.wf (Memory.writeWord m x v) = true := by
  unfold Memory.writeWord
  exact Memory.wf_writeByte _ _ _ (Memory.wf_writeByte _ _ _
    (Memory.wf_writeByte _ _ _ (Memory.wf_writeByte _ _ _ h)))

/-- A slot write keeps the canonical form. -/
theorem Memory.wf_setSlot (m : Memory) (j : Nat) (v : Block) (h : Memory.wf m = true) :
    Memory.wf (Memory.setSlot m j v) = true := by
  unfold Memory.setSlot
  exact Memory.wf_writeWord _ _ _ (Memory.wf_writeWord _ _ _ h)

/-- Scrubbing keeps the canonical form. -/
theorem Memory.wf_scrub (nmax : Nat) (m : Memory) (h : Memory.wf m = true) :
    Memory.wf (Memory.scrub nmax m) = true := Memory.wf_filter _ _ h

theorem Memory.readByte_of_mem {m : Memory} (h : Memory.wf m = true) {c : Host.Cell} (hc : c ∈ m) :
    Memory.readByte m c.1 = c.2 := by
  rw [Memory.wf_iff] at h
  obtain ⟨hp, -⟩ := h
  induction m with
  | nil => simp at hc
  | cons d m ih =>
    rw [List.pairwise_cons] at hp
    rcases List.mem_cons.1 hc with rfl | hc
    · simp [Memory.readByte]
    · have := hp.1 c hc
      simp [Memory.readByte, Nat.ne_of_lt this, ih hc hp.2]

theorem Memory.readByte_ne_zero {m : Memory} {x : Nat} (h : Memory.readByte m x ≠ 0#8) :
    (x, Memory.readByte m x) ∈ m := by
  induction m with
  | nil => simp at h
  | cons d m ih =>
    by_cases hd : d.1 = x
    · subst hd; simp [Memory.readByte]
    · simp only [Memory.readByte, hd, if_false] at h ⊢
      exact List.mem_cons_of_mem _ (ih h)

/-- Two buffers in canonical form that read alike are equal. -/
theorem Memory.ext {m m' : Memory} (h : Memory.wf m = true) (h' : Memory.wf m' = true)
    (hr : ∀ x, Memory.readByte m x = Memory.readByte m' x) : m = m' := by
  have key : ∀ {p q : Memory}, Memory.wf p = true → Memory.wf q = true →
      (∀ x, Memory.readByte p x = Memory.readByte q x) → ∀ c ∈ p, c ∈ q := by
    intro p q hp hq hpq c hc
    have h1 := Memory.readByte_of_mem hp hc
    have h2 : c.2 ≠ 0#8 := ((Memory.wf_iff p).1 hp).2 c hc
    have h3 := Memory.readByte_ne_zero (m := q) (x := c.1) (by rw [← hpq, h1]; exact h2)
    rw [← hpq, h1] at h3
    exact h3
  have hp := ((Memory.wf_iff m).1 h).1
  have hp' := ((Memory.wf_iff m').1 h').1
  have nd : ∀ {p : Memory}, p.Pairwise (fun c d => c.1 < d.1) → p.Nodup := fun hp =>
    hp.imp (fun {c d} hlt he => by simp [he] at hlt)
  refine List.Perm.eq_of_pairwise (le := fun c d => c.1 < d.1) ?_ hp hp' ?_
  · intro a b _ _ h1 h2; exact absurd (h1.trans h2) (lt_irrefl _)
  · exact (List.perm_ext_iff_of_nodup (nd hp) (nd hp')).2
      (fun c => ⟨key h h' hr c, key h' h (fun x => (hr x).symm) c⟩)

/-! ### Words and slots -/

theorem Memory.readByte_writeWord (m : Memory) (x y : Nat) (v : Word) :
    Memory.readByte (Memory.writeWord m x v) y =
      if y = x then v.extractLsb' 24 8 else if y = x + 1 then v.extractLsb' 16 8
      else if y = x + 2 then v.extractLsb' 8 8 else if y = x + 3 then v.extractLsb' 0 8
      else Memory.readByte m y := by
  simp only [Memory.writeWord, Memory.readByte_writeByte]
  split_ifs <;> first | rfl | omega

/-- A word write leaves every byte outside its word alone. -/
theorem Memory.readByte_writeWord_of_ne (m : Memory) (x y : Nat) (v : Word)
    (h : y < x ∨ x + 4 ≤ y) : Memory.readByte (Memory.writeWord m x v) y = Memory.readByte m y := by
  rw [Memory.readByte_writeWord]
  split_ifs <;> first | rfl | omega

theorem bytes_of_word (v : Word) :
    v.extractLsb' 24 8 ++ v.extractLsb' 16 8 ++ v.extractLsb' 8 8 ++ v.extractLsb' 0 8 = v := by
  ext i hi
  simp
  grind

/-- A word reads as it was written. -/
@[simp] theorem Memory.readWord_writeWord (m : Memory) (x : Nat) (v : Word) :
    Memory.readWord (Memory.writeWord m x v) x = v := by
  simp only [Memory.readWord, Memory.readByte_writeWord, Nat.add_right_cancel_iff,
    Nat.add_eq_left, if_true]
  simpa using bytes_of_word v

theorem Memory.readWord_congr {m m' : Memory} {x : Nat}
    (h : ∀ y, x ≤ y → y < x + 4 → Memory.readByte m y = Memory.readByte m' y) :
    Memory.readWord m x = Memory.readWord m' x := by
  simp only [Memory.readWord]
  rw [h x (by omega) (by omega), h (x + 1) (by omega) (by omega), h (x + 2) (by omega) (by omega),
    h (x + 3) (by omega) (by omega)]

theorem Memory.slot_congr {m m' : Memory} {j : Nat}
    (h : ∀ y, slotOffset j ≤ y → y < slotOffset (j + 1) → Memory.readByte m y = Memory.readByte m' y) :
    Memory.slot m j = Memory.slot m' j := by
  unfold slotOffset at h
  unfold Memory.slot slotOffset
  rw [Memory.readWord_congr (m' := m') fun y h1 h2 => h y (by omega) (by omega),
    Memory.readWord_congr (m' := m') fun y h1 h2 => h y (by omega) (by omega)]

/-- A word write at another place leaves a word alone. -/
theorem Memory.readWord_writeWord_of_ne (m : Memory) (x y : Nat) (v : Word)
    (h : y + 4 ≤ x ∨ x + 4 ≤ y) : Memory.readWord (Memory.writeWord m x v) y = Memory.readWord m y :=
  Memory.readWord_congr fun z h1 h2 => Memory.readByte_writeWord_of_ne _ _ _ _ (by omega)

@[simp] theorem hiWord_append_loWord (v : Block) : hiWord v ++ loWord v = v := by
  unfold hiWord loWord
  ext i hi
  simp
  grind

@[simp] theorem hiWord_append (h l : Word) : hiWord (h ++ l) = h := by
  exact BitVec.extractLsb'_append_eq_left

@[simp] theorem loWord_append (h l : Word) : loWord (h ++ l) = l := by
  exact BitVec.extractLsb'_append_eq_right

/-- A slot reads as it was written. -/
@[simp] theorem Memory.slot_setSlot (m : Memory) (j : Nat) (v : Block) :
    Memory.slot (Memory.setSlot m j v) j = v := by
  unfold Memory.slot Memory.setSlot
  rw [Memory.readWord_writeWord_of_ne _ _ _ _ (by omega), Memory.readWord_writeWord,
    Memory.readWord_writeWord, hiWord_append_loWord]

/-- A slot write leaves every byte outside the slot alone. -/
theorem Memory.readByte_setSlot_of_ne (m : Memory) (j y : Nat) (v : Block)
    (h : y < slotOffset j ∨ slotOffset (j + 1) ≤ y) :
    Memory.readByte (Memory.setSlot m j v) y = Memory.readByte m y := by
  unfold Memory.setSlot
  unfold slotOffset at h ⊢
  rw [Memory.readByte_writeWord_of_ne _ _ _ _ (by omega),
    Memory.readByte_writeWord_of_ne _ _ _ _ (by omega)]

/-- A slot write leaves every other slot alone. -/
theorem Memory.slot_setSlot_of_ne (m : Memory) (j k : Nat) (v : Block) (h : k ≠ j) :
    Memory.slot (Memory.setSlot m j v) k = Memory.slot m k :=
  Memory.slot_congr fun y h1 h2 => Memory.readByte_setSlot_of_ne _ _ _ _
    (by unfold slotOffset at *; omega)

/-! ### Scrubbing, and what is listed -/

/-- Scrubbing zeroes every byte of the buffer and no other. -/
theorem Memory.readByte_scrub (nmax : Nat) (m : Memory) (x : Nat) :
    Memory.readByte (Memory.scrub nmax m) x =
      if inBuffer nmax x then 0#8 else Memory.readByte m x := by
  have h := Memory.readByte_filter m (fun y => !inBuffer nmax y) x
  by_cases hx : inBuffer nmax x = true <;> simp_all [Memory.scrub]

/-- Scrubbing zeroes every slot. -/
theorem Memory.slot_scrub (nmax : Nat) (m : Memory) (j : Nat) (h : j ≤ nmax) :
    Memory.slot (Memory.scrub nmax m) j = 0 := by
  have h0 : Memory.slot (Memory.scrub nmax m) j = Memory.slot [] j :=
    Memory.slot_congr fun y h1 h2 => by
      rw [Memory.readByte_scrub, if_pos (by unfold inBuffer slotOffset at *; simp; omega)]; rfl
  rw [h0]
  simp [Memory.slot, Memory.readWord]

theorem Memory.inside_filter {m : Memory} {nmax : Nat} (p : Host.Cell → Bool)
    (h : ∀ c ∈ m, inBuffer nmax c.1 = true) : ∀ c ∈ m.filter p, inBuffer nmax c.1 = true :=
  fun c hc => h c (List.mem_filter.1 hc).1

theorem Memory.inside_writeByte {m : Memory} {nmax x : Nat} {b : Byte}
    (hx : inBuffer nmax x = true) (h : ∀ c ∈ m, inBuffer nmax c.1 = true) :
    ∀ c ∈ Memory.writeByte m x b, inBuffer nmax c.1 = true := by
  intro c hc
  unfold Memory.writeByte at hc
  split at hc
  · exact h c (Memory.mem_erase.1 hc).1
  · rcases Memory.mem_insert.1 hc with rfl | hc
    · exact hx
    · exact h c (Memory.mem_erase.1 hc).1

/-- A word write within the buffer lists nothing outside it. -/
theorem Memory.inside_writeWord {m : Memory} {nmax x : Nat} {v : Word}
    (h1 : slotOffset 0 ≤ x) (h2 : x + 4 ≤ slotOffset (nmax + 1))
    (h : ∀ c ∈ m, inBuffer nmax c.1 = true) :
    ∀ c ∈ Memory.writeWord m x v, inBuffer nmax c.1 = true := by
  have hin : ∀ y, x ≤ y → y < x + 4 → inBuffer nmax y = true := fun y h3 h4 => by
    simp [inBuffer]; omega
  unfold Memory.writeWord
  exact Memory.inside_writeByte (hin _ (by omega) (by omega)) <|
    Memory.inside_writeByte (hin _ (by omega) (by omega)) <|
    Memory.inside_writeByte (hin _ (by omega) (by omega)) <|
    Memory.inside_writeByte (hin _ (by omega) (by omega)) h

/-- A slot write within the buffer lists nothing outside it. -/
theorem Memory.inside_setSlot {m : Memory} {nmax j : Nat} {v : Block} (hj : j ≤ nmax)
    (h : ∀ c ∈ m, inBuffer nmax c.1 = true) :
    ∀ c ∈ Memory.setSlot m j v, inBuffer nmax c.1 = true := by
  unfold Memory.setSlot
  exact Memory.inside_writeWord (by unfold slotOffset; omega) (by unfold slotOffset; omega)
    (Memory.inside_writeWord (by unfold slotOffset; omega) (by unfold slotOffset; omega) h)

/-- A slot of the block after a slot write. -/
theorem State.w_setW (s : State) (j k : Nat) (v : Block) :
    (s.setW j v).w k = if k = j then v else s.w k := by
  unfold State.w State.setW
  split
  · rename_i h; subst h; exact Memory.slot_setSlot _ _ _
  · rename_i h; exact Memory.slot_setSlot_of_ne _ _ _ _ h

/-- A slot of the block after a scrub. -/
theorem State.w_scrub (s : State) (j : Nat) (h : j ≤ s.nmax.toNat) : s.scrub.w j = 0 :=
  Memory.slot_scrub _ _ _ h

end Sys2Proof.Machine
end

