-- ==== Sys2Proof/Laws/Operands.lean ====
section
/-! SUPPORT. The laws of the operand forms: the register map, the words of 64-bit and 256-bit
registers, cipher blocks, the AES port, decoding. -/

namespace Sys2Proof.Machine

open Sys2Proof

/-! ### Cipher blocks -/

@[simp] theorem msb64_append (a b : Block) : msb64 (a ++ b) = a := BitVec.extractLsb'_append_eq_left

@[simp] theorem lsb64_append (a b : Block) : lsb64 (a ++ b) = b := BitVec.extractLsb'_append_eq_right

@[simp] theorem msb64_append_lsb64 (b : Cipher) : msb64 b ++ lsb64 b = b := by
  unfold msb64 lsb64
  ext i hi
  simp
  grind

theorem cipher_ext {b c : Cipher} (h1 : msb64 b = msb64 c) (h2 : lsb64 b = lsb64 c) : b = c := by
  rw [← msb64_append_lsb64 b, h1, h2, msb64_append_lsb64]

/-! ### The register map -/

theorem performed_iff (addr : Offset) (width : Width) :
    performed addr width = true ↔ width = .w32 ∧ addr.toNat % 4 = 0 := by
  have h : addr.extractLsb' 0 2 = 0#2 ↔ addr.toNat % 4 = 0 := by
    rw [← BitVec.toNat_inj]; simp [BitVec.extractLsb'_toNat]
  simp [performed, h]

/-- The offset of a register is aligned and inside the window. -/
theorem regOffset_bounds {nmax : Nat} (hn : nmax ≤ 63) {r : Reg} (h : r.wellFormed nmax = true) :
    regOffset r % 4 = 0 ∧ regOffset r < 4096 := by
  cases r <;> simp_all [regOffset, Reg.wellFormed, slotOffset] <;> omega

/-- The register that stands at its offset. -/
theorem regAt_regOffset {nmax : Nat} {r : Reg} (h : r.wellFormed nmax = true) :
    regAt nmax (regOffset r) = some r := by
  cases r with
  | kek k => fin_cases k <;> rfl
  | whi j =>
    have hj : j ≤ nmax := by simpa [Reg.wellFormed] using h
    have h1 : (0x100 + 8 * j - 0x100) / 8 = j := by omega
    have h2 : (0x100 + 8 * j - 0x100) % 8 = 0 := by omega
    simp [regAt, regOffset, slotOffset, bufferRegAt, hj]
  | wlo j =>
    have hj : j ≤ nmax := by simpa [Reg.wellFormed] using h
    have h1 : (0x100 + 8 * j + 4 - 0x100) / 8 = j := by omega
    have h2 : (0x100 + 8 * j + 4 - 0x100) % 8 = 4 := by omega
    simp only [regAt, regOffset, slotOffset, bufferRegAt, h1, h2]
    rw [if_pos (by omega), if_pos hj, if_neg (by omega)]
  | _ => rfl

theorem regOffset_of_bufferRegAt {nmax a : Nat} {r : Reg} (h0 : 0x100 ≤ a) (ha : a % 4 = 0)
    (h : bufferRegAt nmax a = some r) : r.wellFormed nmax = true ∧ regOffset r = a := by
  unfold bufferRegAt at h
  by_cases h1 : (a - 0x100) / 8 ≤ nmax
  · by_cases h2 : (a - 0x100) % 8 < 4
    · rw [if_pos h1, if_pos h2, Option.some.injEq] at h
      subst h
      exact ⟨by simpa [Reg.wellFormed] using h1, by simp only [regOffset, slotOffset]; omega⟩
    · rw [if_pos h1, if_neg h2, Option.some.injEq] at h
      subst h
      exact ⟨by simpa [Reg.wellFormed] using h1, by simp only [regOffset, slotOffset]; omega⟩
  · rw [if_neg h1] at h
    exact absurd h (by simp)

/-- A register found at an aligned offset exists and stands there. -/
theorem regOffset_of_regAt {nmax a : Nat} {r : Reg} (ha : a % 4 = 0) (h : regAt nmax a = some r) :
    r.wellFormed nmax = true ∧ regOffset r = a := by
  unfold regAt at h
  by_cases h0 : 0x100 ≤ a
  · rw [if_pos h0] at h
    exact regOffset_of_bufferRegAt h0 ha h
  rw [if_neg h0] at h
  by_cases h1 : 0x040 ≤ a ∧ a < 0x060
  · rw [if_pos h1, Option.some.injEq] at h
    subst h
    refine ⟨rfl, ?_⟩
    show 0x040 + 4 * ((a - 0x040) / 4 % 8) = a
    omega
  rw [if_neg h1] at h
  have key : ∀ {c : Prop} [Decidable c] {q : Reg} {o : Option Reg}, (if c then some q else o) = some r →
      (c ∧ q = r) ∨ (¬ c ∧ o = some r) := by
    intro c _ q o h
    by_cases hc : c <;> simp_all
  rcases key h with ⟨rfl, rfl⟩ | ⟨-, h⟩
  · exact ⟨rfl, rfl⟩
  rcases key h with ⟨rfl, rfl⟩ | ⟨-, h⟩
  · exact ⟨rfl, rfl⟩
  rcases key h with ⟨rfl, rfl⟩ | ⟨-, h⟩
  · exact ⟨rfl, rfl⟩
  rcases key h with ⟨rfl, rfl⟩ | ⟨-, h⟩
  · exact ⟨rfl, rfl⟩
  rcases key h with ⟨rfl, rfl⟩ | ⟨-, h⟩
  · exact ⟨rfl, rfl⟩
  rcases key h with ⟨rfl, rfl⟩ | ⟨-, h⟩
  · exact ⟨rfl, rfl⟩
  rcases key h with ⟨rfl, rfl⟩ | ⟨-, h⟩
  · exact ⟨rfl, rfl⟩
  rcases key h with ⟨rfl, rfl⟩ | ⟨-, h⟩
  · exact ⟨rfl, rfl⟩
  rcases key h with ⟨rfl, rfl⟩ | ⟨-, h⟩
  · exact ⟨rfl, rfl⟩
  exact absurd h (by simp)

theorem ofNat_regOffset {nmax : Nat} (hn : nmax ≤ 63) {r : Reg} (h : r.wellFormed nmax = true) :
    (BitVec.ofNat 12 (regOffset r)).toNat = regOffset r := by
  have := (regOffset_bounds hn h).2
  rw [BitVec.toNat_ofNat, Nat.mod_eq_of_lt (by simpa using this)]

theorem nmax_le (s : State) : s.nmax.toNat ≤ 63 := by have := s.nmax.isLt; omega

/-- A transaction on a named register is performed, and reaches it. -/
theorem State.regAt_named (s : State) {r : Reg} (h : r.wellFormed s.nmax.toNat = true) :
    performed (BitVec.ofNat 12 (regOffset r)) .w32 = true ∧
      s.regAt (BitVec.ofNat 12 (regOffset r)) = some r := by
  have h1 := ofNat_regOffset (nmax_le s) h
  refine ⟨(performed_iff _ _).2 ⟨rfl, ?_⟩, ?_⟩
  · rw [h1]; exact (regOffset_bounds (nmax_le s) h).1
  · rw [State.regAt, h1]; exact regAt_regOffset h

/-! ### The KEK -/

theorem getLsbD_setKekWord (k : Fin 8) (v : Word) (kek : Key) (b : Nat) :
    (setKekWord k v kek).getLsbD b =
      if kekLow k ≤ b ∧ b < kekLow k + 32 then v.getLsbD (b - kekLow k) else kek.getLsbD b := by
  have hk : kekLow k ≤ 224 := by unfold kekLow; omega
  have hm : ∀ j, (0xFFFFFFFF#256 : Key).getLsbD j = decide (j < 32) := by
    intro j
    have : (0xFFFFFFFF#256 : Key) = (BitVec.allOnes 32).setWidth 256 := by decide
    rw [this, BitVec.getLsbD_setWidth, BitVec.getLsbD_allOnes]
    by_cases hj : j < 32 <;> simp [hj]; omega
  by_cases hb : b < 256
  · simp only [setKekWord, BitVec.getLsbD_or, BitVec.getLsbD_and, BitVec.getLsbD_not,
      BitVec.getLsbD_shiftLeft, BitVec.getLsbD_setWidth, hm, hb]
    split_ifs with h
    · simp [Nat.not_lt.2 h.1, show b - kekLow k < 32 by omega, show b - kekLow k < 256 by omega]
    · by_cases hlt : b < kekLow k
      · simp [hlt]
      · simp [hlt, show ¬ b - kekLow k < 32 by omega,
          BitVec.getLsbD_of_ge v (b - kekLow k) (by omega)]
  · rw [if_neg (by omega), BitVec.getLsbD_of_ge _ _ (by omega), BitVec.getLsbD_of_ge _ _ (by omega)]

/-- The written key word reads back. -/
@[simp] theorem kekWord_setKekWord (k : Fin 8) (v : Word) (kek : Key) :
    kekWord k (setKekWord k v kek) = v := by
  apply BitVec.eq_of_getLsbD_eq
  intro i hi
  rw [kekWord, BitVec.getLsbD_extractLsb', getLsbD_setKekWord]
  simp [hi]

/-- Writing one key word leaves the others alone. -/
theorem kekWord_setKekWord_of_ne {k l : Fin 8} (h : l ≠ k) (v : Word) (kek : Key) :
    kekWord l (setKekWord k v kek) = kekWord l kek := by
  have h : l.val ≠ k.val := fun e => h (Fin.ext e)
  apply BitVec.eq_of_getLsbD_eq
  intro i hi
  rw [kekWord, kekWord, BitVec.getLsbD_extractLsb', BitVec.getLsbD_extractLsb', getLsbD_setKekWord,
    if_neg (by unfold kekLow; omega)]

/-! ### The AES port -/

/-- Decryption inverts encryption (20_memory.md R124 (b)). -/
theorem aesDec_aesEnc {kl : BitVec 2} (h : kl ≠ 3#2) (key : Key) (x : Cipher) :
    aesDec kl key (aesEnc kl key x) = x := by
  simp [aesDec, aesEnc, h]

/-- Encryption inverts decryption (20_memory.md R124 (b)). -/
theorem aesEnc_aesDec {kl : BitVec 2} (h : kl ≠ 3#2) (key : Key) (x : Cipher) :
    aesEnc kl key (aesDec kl key x) = x := by
  simp [aesDec, aesEnc, h]

/-- The answers depend on the used key bytes only (20_memory.md R124 (c)). -/
theorem aes_usedKey {kl : BitVec 2} (h : kl ≠ 3#2) {k₁ k₂ : Key}
    (hk : usedKey kl k₁ = usedKey kl k₂) :
    aesEnc kl k₁ = aesEnc kl k₂ ∧ aesDec kl k₁ = aesDec kl k₂ := by
  constructor <;> funext x <;> simp [aesDec, aesEnc, h, hk]

/-- The used key is the first kb bytes of the key port's value, and zeros (20_memory.md R121). -/
theorem getLsbD_usedKey {kl : BitVec 2} (h : kl ≠ 3#2) (key : Key) (b : Nat) :
    (usedKey kl key).getLsbD b = (decide (256 - 8 * keyBytes kl ≤ b) && key.getLsbD b) := by
  have hk : kl = 0#2 ∨ kl = 1#2 ∨ kl = 2#2 := by revert kl; decide
  by_cases hb : b < 256
  · rcases hk with rfl | rfl | rfl
    · simp only [usedKey, keyBytes, if_true, BitVec.getLsbD_append, BitVec.getLsbD_extractLsb',
        BitVec.getLsbD_zero]
      by_cases h1 : b < 128
      · simp [h1]
      · simp [h1, show b - 128 < 128 by omega, show 128 + (b - 128) = b by omega,
          show 128 ≤ b by omega]
    · simp only [usedKey, keyBytes, BitVec.getLsbD_append, BitVec.getLsbD_extractLsb',
        BitVec.getLsbD_zero, if_true, if_neg (show ¬ 1#2 = 0#2 by decide)]
      by_cases h1 : b < 64
      · simp [h1]
      · simp [h1, show b - 64 < 192 by omega, show 64 + (b - 64) = b by omega,
          show 64 ≤ b by omega]
    · simp [usedKey, keyBytes]
  · rw [BitVec.getLsbD_of_ge _ _ (by omega), BitVec.getLsbD_of_ge _ _ (by omega)]; simp

/-! ### Decoding -/

theorem decodeOp_opcode {i : Instr} {op : BitVec 4} (h : i.opcode = op) (b : Bool) :
    ∃ j : Instr, decodeOp op b = .ok j ∧ j.opcode = op ∧ j.ivsel = b := by
  subst h
  cases i <;> exact ⟨_, rfl, rfl, rfl⟩

/-- A command is its opcode and its IVSEL. -/
theorem instr_ext {i j : Instr} (h1 : i.opcode = j.opcode) (h2 : i.ivsel = j.ivsel) : i = j := by
  cases i <;> cases j <;> first
    | (simp [Instr.opcode] at h1; done)
    | (simp only [Instr.ivsel] at h2; rw [h2])

theorem opcode_of_decodeOp {op : BitVec 4} {b : Bool} {i : Instr} (h : decodeOp op b = .ok i) :
    i.opcode = op ∧ i.ivsel = b := by
  unfold decodeOp at h
  split_ifs at h with h1 h2 h3 h4 <;> (injection h with h; subst h; exact ⟨by simp_all [Instr.opcode], rfl⟩)

theorem decodeOp_error {op : BitVec 4} {b : Bool} {e : DecodeError} (h : decodeOp op b = .error e) :
    e = .illegalOpcode op ∧ legalOp op = false := by
  unfold decodeOp at h
  split_ifs at h with h1 h2 h3 h4
  injection h with h
  exact ⟨h.symm, by simp [legalOp, keyedOp, h1, h2, h3, h4]⟩

theorem decodeOp_illegal {op : BitVec 4} (h : legalOp op = false) (b : Bool) :
    decodeOp op b = .error (.illegalOpcode op) := by
  simp [legalOp, keyedOp] at h
  simp [decodeOp, h]

end Sys2Proof.Machine
end

