-- ==== Sys2Proof/Laws/Exec.lean ====
section
/-! SUPPORT. What `exec` and the running command's step do at each position, said once per position. -/

namespace Sys2Proof.Machine

open Sys2Proof

/-! ### The three key commands under one name each

The running command's arms, chosen by OPL as 40_carousel.md R210 to R222 choose them. -/

/-- `init()` of the running command (R215). -/
def State.runningInit (s : State) : State := if s.opl = 0x1#4 then wrapInit s else unwrapInit s

/-- The round of the running command (R221). -/
def runningRound (op : BitVec 4) (b : Cipher) (s : State) : State :=
  if op = 0x1#4 then wrapRound b s else unwrapRound b s

/-- The code of the running command's failed integrity check (42_unwrap.md R285). -/
def failCode (op : BitVec 4) : ResultCode := if op = 0x2#4 then .absent else .unwrapFailed

/-- FINISH of the running command (R222). -/
def State.runningFinish (s : State) : State :=
  if s.opl = 0x1#4 then wrapFinish s else unwrapFinish (failCode s.opl) s

/-! ### exec by position -/

/-- In IDLE every command is accepted (R200). -/
theorem exec_idle (i : Instr) {s : State} (h : s.phase = .idle) :
    exec i s = .next (accept i.opcode i.ivsel s) := by
  cases i <;> simp [exec, execWrap, execUnwrap, execUnwrapStrict, execClear, commandStep, h,
    Instr.opcode, Instr.ivsel]

theorem execWrap_start (b : Bool) {s : State} (h : s.phase = .start) :
    exec (.wrap b) s = .next (startChecked wrapInit s) := by
  simp [exec, execWrap, commandStep, h]

theorem execWrap_issue (b : Bool) {s : State} (h : s.phase = .issue) :
    exec (.wrap b) s = .next (issue .enc (wrapInput s) s) := by
  simp [exec, execWrap, commandStep, h]

theorem execWrap_wait (b : Bool) {s : State} (h : s.phase = .wait) :
    exec (.wrap b) s = .next (respond wrapRound s) := by
  simp [exec, execWrap, commandStep, h]

theorem execWrap_finish (b : Bool) {s : State} (h : s.phase = .finish) :
    exec (.wrap b) s = .next (wrapFinish s) := by
  simp [exec, execWrap, commandStep, h]

theorem execUnwrap_start (b : Bool) {s : State} (h : s.phase = .start) :
    exec (.unwrap b) s = .next (startChecked unwrapInit s) := by
  simp [exec, execUnwrap, commandStep, h]

theorem execUnwrap_issue (b : Bool) {s : State} (h : s.phase = .issue) :
    exec (.unwrap b) s = .next (issue .dec (unwrapInput s) s) := by
  simp [exec, execUnwrap, commandStep, h]

theorem execUnwrap_wait (b : Bool) {s : State} (h : s.phase = .wait) :
    exec (.unwrap b) s = .next (respond unwrapRound s) := by
  simp [exec, execUnwrap, commandStep, h]

theorem execUnwrap_finish (b : Bool) {s : State} (h : s.phase = .finish) :
    exec (.unwrap b) s = .next (unwrapFinish .absent s) := by
  simp [exec, execUnwrap, commandStep, h]

theorem execUnwrapStrict_start (b : Bool) {s : State} (h : s.phase = .start) :
    exec (.unwrapStrict b) s = .next (startChecked unwrapInit s) := by
  simp [exec, execUnwrapStrict, commandStep, h]

theorem execUnwrapStrict_issue (b : Bool) {s : State} (h : s.phase = .issue) :
    exec (.unwrapStrict b) s = .next (issue .dec (unwrapInput s) s) := by
  simp [exec, execUnwrapStrict, commandStep, h]

theorem execUnwrapStrict_wait (b : Bool) {s : State} (h : s.phase = .wait) :
    exec (.unwrapStrict b) s = .next (respond unwrapRound s) := by
  simp [exec, execUnwrapStrict, commandStep, h]

theorem execUnwrapStrict_finish (b : Bool) {s : State} (h : s.phase = .finish) :
    exec (.unwrapStrict b) s = .next (unwrapFinish .unwrapFailed s) := by
  simp [exec, execUnwrapStrict, commandStep, h]

theorem execClear_start (b : Bool) {s : State} (h : s.phase = .start) :
    exec (.clear b) s = .next (clearStart s) := by
  simp [exec, execClear, commandStep, h]

theorem execClear_past_start (b : Bool) {s : State} (h0 : s.phase ≠ .idle) (h1 : s.phase ≠ .start) :
    exec (.clear b) s = .fault .deadPosition := by
  rcases hp : s.phase with _ | _ | _ | _ | _ <;>
    simp_all [exec, execClear, commandStep, deadStep]

theorem illegalStep_idle (op : BitVec 4) (b : Bool) {s : State} (h : s.phase = .idle) :
    illegalStep op b s = .next (accept op b s) := by
  simp [illegalStep, commandStep, h]

theorem illegalStep_start (op : BitVec 4) (b : Bool) {s : State} (h : s.phase = .start) :
    illegalStep op b s = .next (complete .illegalCmd false s) := by
  simp [illegalStep, commandStep, h]

theorem illegalStep_past_start (op : BitVec 4) (b : Bool) {s : State} (h0 : s.phase ≠ .idle)
    (h1 : s.phase ≠ .start) : illegalStep op b s = .fault .deadPosition := by
  rcases hp : s.phase with _ | _ | _ | _ | _ <;> simp_all [illegalStep, commandStep, deadStep]

/-- Once accepted, a command no longer depends on IVSEL. -/
theorem exec_congr_opcode {i j : Instr} (hij : i.opcode = j.opcode) {s : State}
    (h : s.phase ≠ .idle) : exec i s = exec j s := by
  cases i <;> cases j <;> first
    | (simp [Instr.opcode] at hij; done)
    | (rcases hp : s.phase with _ | _ | _ | _ | _ <;>
        simp_all [exec, execWrap, execUnwrap, execUnwrapStrict, execClear, commandStep])

/-! ### The write to CMD and the running command -/

/-- A CMD word written while IDLE is accepted, legal or not (R200). -/
theorem commandWrite_idle (v : Word) {s : State} (h : s.phase = .idle) :
    commandWrite v s = .next (accept (cmdOp v) (cmdIvsel v) s) := by
  unfold commandWrite decode
  split
  · rename_i i hi
    rw [exec_idle i h, (opcode_of_decodeOp hi).1, (opcode_of_decodeOp hi).2]
  · exact illegalStep_idle _ _ h

/-- The running command's step is that of the command whose opcode is latched. -/
theorem runningStep_eq_exec {i : Instr} {s : State} (hi : i.opcode = s.opl) (h : s.phase ≠ .idle) :
    runningStep s = exec i s := by
  obtain ⟨j, hj, hop, -⟩ := decodeOp_opcode hi false
  rw [runningStep, execOp, hj]
  exact exec_congr_opcode (hop.trans hi.symm) h

theorem runningStep_illegal {s : State} (h : legalOp s.opl = false) :
    runningStep s = illegalStep s.opl false s := by
  rw [runningStep, execOp, decodeOp_illegal h]

theorem keyedOp_cases {op : BitVec 4} (h : keyedOp op = true) :
    op = 0x1#4 ∨ op = 0x2#4 ∨ op = 0x3#4 := by
  simpa [keyedOp, or_assoc] using h

theorem legalOp_cases (op : BitVec 4) :
    keyedOp op = true ∨ op = 0x4#4 ∨ legalOp op = false := by
  by_cases h : keyedOp op = true
  · exact .inl h
  · by_cases h4 : op = 0x4#4
    · exact .inr (.inl h4)
    · exact .inr (.inr (by simp_all [legalOp]))

/-- START of a key command: the checks, then `init()` (R210). -/
theorem runningStep_start_keyed {s : State} (h : s.phase = .start) (hk : keyedOp s.opl = true) :
    runningStep s = .next (startChecked State.runningInit s) := by
  rcases keyedOp_cases hk with ho | ho | ho
  · rw [runningStep_eq_exec (i := .wrap false) ho.symm (by simp [h]), execWrap_start _ h]
    simp [startChecked, State.runningInit, ho]
  · rw [runningStep_eq_exec (i := .unwrap false) ho.symm (by simp [h]), execUnwrap_start _ h]
    simp [startChecked, State.runningInit, ho]
  · rw [runningStep_eq_exec (i := .unwrapStrict false) ho.symm (by simp [h]),
      execUnwrapStrict_start _ h]
    simp [startChecked, State.runningInit, ho]

/-- START of CLEAR (R320). -/
theorem runningStep_start_clear {s : State} (h : s.phase = .start) (ho : s.opl = 0x4#4) :
    runningStep s = .next (clearStart s) := by
  rw [runningStep_eq_exec (i := .clear false) ho.symm (by simp [h]), execClear_start _ h]

/-- START of an illegal command (R325). -/
theorem runningStep_start_illegal {s : State} (h : s.phase = .start) (hl : legalOp s.opl = false) :
    runningStep s = .next (complete .illegalCmd false s) := by
  rw [runningStep_illegal hl, illegalStep_start _ _ h]

/-- ISSUE (R220). -/
theorem runningStep_issue {s : State} (h : s.phase = .issue) (hk : keyedOp s.opl = true) :
    runningStep s = .next (issue s.runningDir s.runningInput s) := by
  rcases keyedOp_cases hk with ho | ho | ho
  · rw [runningStep_eq_exec (i := .wrap false) ho.symm (by simp [h]), execWrap_issue _ h]
    simp [State.runningDir, State.runningInput, ho]
  · rw [runningStep_eq_exec (i := .unwrap false) ho.symm (by simp [h]), execUnwrap_issue _ h]
    simp [State.runningDir, State.runningInput, ho]
  · rw [runningStep_eq_exec (i := .unwrapStrict false) ho.symm (by simp [h]),
      execUnwrapStrict_issue _ h]
    simp [State.runningDir, State.runningInput, ho]

/-- The AES response step (R221). -/
theorem runningStep_wait {s : State} (h : s.phase = .wait) (hk : keyedOp s.opl = true) :
    runningStep s = .next (respond (runningRound s.opl) s) := by
  rcases keyedOp_cases hk with ho | ho | ho
  · rw [runningStep_eq_exec (i := .wrap false) ho.symm (by simp [h]), execWrap_wait _ h]
    simp [respond, runningRound, ho]
  · rw [runningStep_eq_exec (i := .unwrap false) ho.symm (by simp [h]), execUnwrap_wait _ h]
    simp [respond, runningRound, ho]
  · rw [runningStep_eq_exec (i := .unwrapStrict false) ho.symm (by simp [h]),
      execUnwrapStrict_wait _ h]
    simp [respond, runningRound, ho]

/-- FINISH (R222). -/
theorem runningStep_finish {s : State} (h : s.phase = .finish) (hk : keyedOp s.opl = true) :
    runningStep s = .next s.runningFinish := by
  rcases keyedOp_cases hk with ho | ho | ho
  · rw [runningStep_eq_exec (i := .wrap false) ho.symm (by simp [h]), execWrap_finish _ h]
    simp [State.runningFinish, ho]
  · rw [runningStep_eq_exec (i := .unwrap false) ho.symm (by simp [h]), execUnwrap_finish _ h]
    simp [State.runningFinish, failCode, ho]
  · rw [runningStep_eq_exec (i := .unwrapStrict false) ho.symm (by simp [h]),
      execUnwrapStrict_finish _ h]
    simp [State.runningFinish, failCode, ho]

/-- Past START only a key command has a step. -/
theorem runningStep_past_start {s s' : State} (h : s.inRounds = true)
    (hs : runningStep s = .next s') : keyedOp s.opl = true := by
  have h0 : s.phase ≠ .idle ∧ s.phase ≠ .start := by
    rcases hp : s.phase with _ | _ | _ | _ | _ <;> simp_all [State.inRounds]
  rcases legalOp_cases s.opl with hk | ho | hl
  · exact hk
  · rw [runningStep_eq_exec (i := .clear false) ho.symm h0.1, execClear_past_start _ h0.1 h0.2] at hs
    cases hs
  · rw [runningStep_illegal hl, illegalStep_past_start _ _ h0.1 h0.2] at hs
    cases hs

/-! ### The shared steps -/

/-- What the START checks answer. -/
theorem startChecked_cases (init : State → State) (s : State) :
    (s.kll = 3#2 ∧ startChecked init s = complete .badKeylen false s) ∨
    (s.kll ≠ 3#2 ∧ (s.nl = 0#6 ∨ s.nmax < s.nl) ∧
      startChecked init s = complete .badLength false s) ∨
    (s.lengthsLegal = true ∧ startChecked init s = init s) := by
  unfold startChecked State.lengthsLegal
  by_cases h1 : s.kll = 3#2
  · exact .inl ⟨h1, if_pos h1⟩
  · by_cases h2 : s.nl = 0#6 ∨ s.nmax < s.nl
    · exact .inr (.inl ⟨h1, h2, by rw [if_neg h1, if_pos h2]⟩)
    · refine .inr (.inr ⟨?_, by rw [if_neg h1, if_neg h2]⟩)
      rw [not_or, BitVec.not_lt] at h2
      simp [h1, h2.1, h2.2]

theorem startChecked_legal (init : State → State) {s : State} (h : s.lengthsLegal = true) :
    startChecked init s = init s := by
  simp [State.lengthsLegal] at h
  unfold startChecked
  rw [if_neg (by simpa using h.1.1), if_neg]
  rw [not_or, BitVec.not_lt]
  exact ⟨by simpa using h.1.2, h.2⟩

/-- The lengths R213 and R214 let through, as numbers. -/
theorem lengthsLegal_iff {s : State} : s.lengthsLegal = true ↔
    s.kll ≠ 3#2 ∧ 1 ≤ s.nl.toNat ∧ s.nl.toNat ≤ s.nmax.toNat := by
  have h0 : s.nl ≠ 0#6 ↔ 1 ≤ s.nl.toNat := by
    rw [ne_eq, ← BitVec.toNat_inj]; simp; omega
  simp [State.lengthsLegal, BitVec.le_def, and_assoc, ← h0]

/-- The rounds' updates beside the buffer: with a response B on the port. -/
theorem respond_some (round : Cipher → State → State) {s : State} {b : Cipher}
    (h : s.aesRsp = some b) :
    respond round s = round b { s with req := none, aesRsp := none } := by
  simp [respond, h]

/-- What `runningInit` does (R215). -/
theorem runningInit_eq (s : State) : s.runningInit =
    seed (if s.opl = 0x1#4 then s.ive else s.w 0)
      (if s.opl = 0x1#4 then 1#64 else BitVec.ofNat 64 (lastRound s.nl)) s := by
  unfold State.runningInit wrapInit unwrapInit
  split <;> rfl

/-- What a round does (R253, R254, R283, R284). -/
theorem runningRound_eq (op : BitVec 4) (b : Cipher) (s : State) : runningRound op b s =
    { s.setW s.roundIndex (lsb64 b) with
      a := if op = 0x1#4 ∧ s.nl ≠ 1#6 then msb64 b ^^^ s.t else msb64 b
      t := if s.nl = 1#6 then s.t else if op = 0x1#4 then s.t + 1 else s.t - 1
      phase :=
        if s.nl = 1#6 ∨ (op = 0x1#4 ∧ lastRound s.nl < (s.t + 1).toNat) ∨
          (op ≠ 0x1#4 ∧ s.t - 1 = 0#64) then .finish else .issue } := by
  unfold runningRound wrapRound unwrapRound
  by_cases ho : op = 0x1#4 <;> by_cases hn : s.nl = 1#6 <;>
    simp [ho, hn, State.setW, State.roundIndex]

@[simp] theorem runningRound_a (op : BitVec 4) (b : Cipher) (s : State) :
    (runningRound op b s).a = if op = 0x1#4 ∧ s.nl ≠ 1#6 then msb64 b ^^^ s.t else msb64 b := by
  rw [runningRound_eq]
@[simp] theorem runningRound_t (op : BitVec 4) (b : Cipher) (s : State) :
    (runningRound op b s).t =
      if s.nl = 1#6 then s.t else if op = 0x1#4 then s.t + 1 else s.t - 1 := by
  rw [runningRound_eq]
@[simp] theorem runningRound_phase (op : BitVec 4) (b : Cipher) (s : State) :
    (runningRound op b s).phase =
      if s.nl = 1#6 ∨ (op = 0x1#4 ∧ lastRound s.nl < (s.t + 1).toNat) ∨
        (op ≠ 0x1#4 ∧ s.t - 1 = 0#64) then .finish else .issue := by
  rw [runningRound_eq]
@[simp] theorem runningRound_mem (op : BitVec 4) (b : Cipher) (s : State) :
    (runningRound op b s).mem = Memory.setSlot s.mem s.roundIndex (lsb64 b) := by
  rw [runningRound_eq]; rfl
@[simp] theorem runningRound_w (op : BitVec 4) (b : Cipher) (s : State) (j : Nat) :
    (runningRound op b s).w j = if j = s.roundIndex then lsb64 b else s.w j := by
  rw [← State.w_setW, State.w, runningRound_mem]; rfl
@[simp] theorem runningRound_nmax (op : BitVec 4) (b : Cipher) (s : State) :
    (runningRound op b s).nmax = s.nmax := by rw [runningRound_eq]; rfl
@[simp] theorem runningRound_keylen (op : BitVec 4) (b : Cipher) (s : State) :
    (runningRound op b s).keylen = s.keylen := by rw [runningRound_eq]; rfl
@[simp] theorem runningRound_n (op : BitVec 4) (b : Cipher) (s : State) :
    (runningRound op b s).n = s.n := by rw [runningRound_eq]; rfl
@[simp] theorem runningRound_valid (op : BitVec 4) (b : Cipher) (s : State) :
    (runningRound op b s).valid = s.valid := by rw [runningRound_eq]; rfl
@[simp] theorem runningRound_code (op : BitVec 4) (b : Cipher) (s : State) :
    (runningRound op b s).code = s.code := by rw [runningRound_eq]; rfl
@[simp] theorem runningRound_irqEnable (op : BitVec 4) (b : Cipher) (s : State) :
    (runningRound op b s).irqEnable = s.irqEnable := by rw [runningRound_eq]; rfl
@[simp] theorem runningRound_irqStatus (op : BitVec 4) (b : Cipher) (s : State) :
    (runningRound op b s).irqStatus = s.irqStatus := by rw [runningRound_eq]; rfl
@[simp] theorem runningRound_iv (op : BitVec 4) (b : Cipher) (s : State) :
    (runningRound op b s).iv = s.iv := by rw [runningRound_eq]; rfl
@[simp] theorem runningRound_kek (op : BitVec 4) (b : Cipher) (s : State) :
    (runningRound op b s).kek = s.kek := by rw [runningRound_eq]; rfl
@[simp] theorem runningRound_opl (op : BitVec 4) (b : Cipher) (s : State) :
    (runningRound op b s).opl = s.opl := by rw [runningRound_eq]; rfl
@[simp] theorem runningRound_nl (op : BitVec 4) (b : Cipher) (s : State) :
    (runningRound op b s).nl = s.nl := by rw [runningRound_eq]; rfl
@[simp] theorem runningRound_kll (op : BitVec 4) (b : Cipher) (s : State) :
    (runningRound op b s).kll = s.kll := by rw [runningRound_eq]; rfl
@[simp] theorem runningRound_ive (op : BitVec 4) (b : Cipher) (s : State) :
    (runningRound op b s).ive = s.ive := by rw [runningRound_eq]; rfl
@[simp] theorem runningRound_req (op : BitVec 4) (b : Cipher) (s : State) :
    (runningRound op b s).req = s.req := by rw [runningRound_eq]; rfl
@[simp] theorem runningRound_aesRsp (op : BitVec 4) (b : Cipher) (s : State) :
    (runningRound op b s).aesRsp = s.aesRsp := by rw [runningRound_eq]; rfl
@[simp] theorem runningRound_busRsp (op : BitVec 4) (b : Cipher) (s : State) :
    (runningRound op b s).busRsp = s.busRsp := by rw [runningRound_eq]; rfl
@[simp] theorem runningRound_schedule (op : BitVec 4) (b : Cipher) (s : State) :
    (runningRound op b s).schedule = s.schedule := by rw [runningRound_eq]; rfl
@[simp] theorem runningRound_coreLive (op : BitVec 4) (b : Cipher) (s : State) :
    (runningRound op b s).coreLive = s.coreLive := by rw [runningRound_eq]; rfl

/-- The visited slot is one of the command's own (R235). -/
theorem roundIndex_bounds {s : State} (h : 1 ≤ s.nl.toNat) :
    1 ≤ s.roundIndex ∧ s.roundIndex ≤ s.nl.toNat := by
  unfold State.roundIndex carouselIndex
  split
  · rename_i h1; simp [h1]
  · have := Nat.mod_lt (s.t.toNat - 1) (show s.nl.toNat > 0 by omega)
    omega

/-! ### All a running command's step can do -/

theorem runningInit_phase (s : State) : s.runningInit.phase = .issue := by rw [runningInit_eq]; rfl

theorem busy_phases {s : State} (h0 : s.phase ≠ .idle) (h1 : s.phase ≠ .wait) :
    s.phase = .start ∨ s.phase = .issue ∨ s.phase = .finish := by
  cases h : s.phase <;> simp_all

/-- A Controller step of the running command completes it, enters its rounds, or sends a request. -/
theorem runningStep_cases {s s' : State} (h0 : s.phase ≠ .idle) (h1 : s.phase ≠ .wait)
    (hs : runningStep s = .next s') :
    (∃ (c : ResultCode) (v : Bool) (m : Memory), s' = complete c v { s with mem := m } ∧
      c ≠ .none ∧ (v = true → c = .ok) ∧
      (m = s.mem ∨ (s.phase = .finish ∧ keyedOp s.opl = true ∧ m = Memory.setSlot s.mem 0 s.a) ∨
        m = Memory.scrub s.nmax.toNat s.mem)) ∨
    (s.phase = .start ∧ keyedOp s.opl = true ∧ s.lengthsLegal = true ∧ s' = s.runningInit) ∨
    (s.phase = .issue ∧ keyedOp s.opl = true ∧ s' = issue s.runningDir s.runningInput s) := by
  rcases busy_phases h0 h1 with hp | hp | hp
  · rcases legalOp_cases s.opl with hk | ho | hl
    · rw [runningStep_start_keyed hp hk] at hs
      cases hs
      rcases startChecked_cases State.runningInit s with ⟨-, h⟩ | ⟨-, -, h⟩ | ⟨hl, h⟩ <;> rw [h]
      · exact .inl ⟨_, _, s.mem, rfl, by decide, by decide, .inl rfl⟩
      · exact .inl ⟨_, _, s.mem, rfl, by decide, by decide, .inl rfl⟩
      · exact .inr (.inl ⟨hp, hk, hl, rfl⟩)
    · rw [runningStep_start_clear hp ho] at hs
      cases hs
      exact .inl ⟨_, _, _, rfl, by decide, by decide, .inr (.inr rfl)⟩
    · rw [runningStep_start_illegal hp hl] at hs
      cases hs
      exact .inl ⟨_, _, s.mem, rfl, by decide, by decide, .inl rfl⟩
  · have hk := runningStep_past_start (by simp [State.inRounds, hp]) hs
    rw [runningStep_issue hp hk] at hs
    cases hs
    exact .inr (.inr ⟨hp, hk, rfl⟩)
  · have hk := runningStep_past_start (by simp [State.inRounds, hp]) hs
    rw [runningStep_finish hp hk] at hs
    cases hs
    unfold State.runningFinish wrapFinish unwrapFinish
    split
    · exact .inl ⟨_, _, _, rfl, by decide, by decide, .inr (.inl ⟨hp, hk, rfl⟩)⟩
    · split
      · exact .inl ⟨_, _, _, rfl, by decide, by decide, .inr (.inl ⟨hp, hk, rfl⟩)⟩
      · exact .inl ⟨_, _, _, rfl, by unfold failCode; split <;> decide, (by simp), .inr (.inr rfl)⟩

/-- The AES response step of the running command is its round. -/
theorem runningStep_response {s s' : State} {b : Cipher} (h : s.phase = .wait)
    (hs : runningStep { s with aesRsp := some b } = .next s') :
    keyedOp s.opl = true ∧
      s' = runningRound s.opl b { s with req := none, aesRsp := none } := by
  have hk := runningStep_past_start (s := { s with aesRsp := some b })
    (by simp [State.inRounds, h]) hs
  rw [runningStep_wait (s := { s with aesRsp := some b }) h hk] at hs
  cases hs
  exact ⟨hk, rfl⟩

end Sys2Proof.Machine
end

