-- ==== Sys2Proof/Laws/Step.lean ====
section
/-! SUPPORT. What a host transaction and a turn can do, said once. -/

namespace Sys2Proof.Machine

open Sys2Proof

/-! ### Host transactions -/

theorem hostStep_wr_named (s : State) {r : Reg} (v : Word) (h : r.wellFormed s.nmax.toNat = true) :
    hostStep (wrTxn r v) s = writeReg r v (answer none .okay s) := by
  obtain ⟨h1, h2⟩ := s.regAt_named h
  simp [hostStep, wrTxn, busWrite, h1, h2]

theorem hostStep_rd_named (s : State) {r : Reg} (h : r.wellFormed s.nmax.toNat = true) :
    hostStep (rdTxn r) s = .next (answer (some (readReg s r)) .okay s) := by
  obtain ⟨h1, h2⟩ := s.regAt_named h
  simp [hostStep, rdTxn, busRead, h1, h2]

/-- A write reaches a register of the window, or gets an ERROR response. -/
theorem hostStep_wr_cases (addr : Offset) (width : Width) (v : Word) (s : State) :
    hostStep (.wr addr width v) s = .next (answer none .error s) ∨
    ∃ r, r.wellFormed s.nmax.toNat = true ∧
      hostStep (.wr addr width v) s = writeReg r v (answer none .okay s) := by
  show busWrite addr width v s = _ ∨ ∃ r, _ ∧ busWrite addr width v s = _
  unfold busWrite
  by_cases hp : performed addr width = true
  · rw [if_pos hp]
    cases hr : s.regAt addr with
    | none => exact .inl rfl
    | some r => exact .inr ⟨r, (regOffset_of_regAt ((performed_iff _ _).1 hp).2 hr).1, rfl⟩
  · rw [if_neg hp]; exact .inl rfl

/-- A read only sets the response. -/
theorem hostStep_rd_frame (addr : Offset) (width : Width) (s : State) :
    ∃ r : BusRsp, hostStep (.rd addr width) s = .next { s with busRsp := some r } := by
  show ∃ r, Host.Outcome.next (busRead addr width s) = _
  unfold busRead
  split
  · split <;> exact ⟨_, rfl⟩
  · exact ⟨_, rfl⟩

/-- While a command runs, a transaction changes only the interrupt registers and the response. -/
theorem hostStep_busy (x : BusTxn) {s : State} (h : s.phase ≠ .idle) :
    ∃ (en st : BitVec 3) (r : Option BusRsp),
      hostStep x s = .next { s with irqEnable := en, irqStatus := st, busRsp := r } ∧
      (st = s.irqStatus ∨ st = dropIrq s.irqStatus ∨ ∃ v, st = acknowledgeIrq v s.irqStatus) := by
  cases x with
  | rd addr width =>
    obtain ⟨r, hr⟩ := hostStep_rd_frame addr width s
    exact ⟨s.irqEnable, s.irqStatus, some r, hr, .inl rfl⟩
  | wr addr width v =>
    rcases hostStep_wr_cases addr width v s with hr | ⟨r, -, hr⟩
    · exact ⟨_, _, _, hr, .inl rfl⟩
    · have hb : (answer none .okay s).busy = true := by simp [State.busy, h]
      cases r <;> simp only [writeReg, hb, if_true] at hr
      case irqStatus => exact ⟨_, _, _, hr, .inr (.inr ⟨v, rfl⟩)⟩
      case hwcfg => exact ⟨_, _, _, hr, .inl rfl⟩
      case status => exact ⟨_, _, _, hr, .inl rfl⟩
      case round => exact ⟨_, _, _, hr, .inl rfl⟩
      case irqEnable => exact ⟨_, _, _, hr, .inl rfl⟩
      all_goals exact ⟨_, _, _, hr, .inr (.inl rfl)⟩

/-- A word write into the buffer of a state. -/
def bufferWrite (s : State) (m : Memory) : Prop :=
  ∃ (j : Nat) (v : Word), j ≤ s.nmax.toNat ∧
    (m = Memory.writeWord s.mem (slotOffset j) v ∨ m = Memory.writeWord s.mem (slotOffset j + 4) v)

/-- While IDLE, a transaction changes host registers and the response, or is the acceptance of a
command. -/
theorem hostStep_idle (x : BusTxn) {s : State} (h : s.phase = .idle) :
    (∃ (kl : BitVec 2) (n : BitVec 6) (en st : BitVec 3) (iv : Block) (kek : Key) (m : Memory)
        (r : Option BusRsp),
      hostStep x s = .next { s with
        keylen := kl, n := n, irqEnable := en, irqStatus := st, iv := iv, kek := kek, mem := m
        busRsp := r } ∧
      (st = s.irqStatus ∨ ∃ v, st = acknowledgeIrq v s.irqStatus) ∧
      (m = s.mem ∨ bufferWrite s m)) ∨
    (∃ (op : BitVec 4) (b : Bool), hostStep x s = .next (accept op b (answer none .okay s))) := by
  cases x with
  | rd addr width =>
    obtain ⟨r, hr⟩ := hostStep_rd_frame addr width s
    exact .inl ⟨_, _, _, _, _, _, _, _, hr, .inl rfl, .inl rfl⟩
  | wr addr width v =>
    rcases hostStep_wr_cases addr width v s with hr | ⟨r, hw, hr⟩
    · exact .inl ⟨_, _, _, _, _, _, _, _, hr, .inl rfl, .inl rfl⟩
    · have hb : (answer none .okay s).busy = false := by simp [State.busy, h]
      cases r <;> simp only [writeReg, hb, if_false, Bool.false_eq_true] at hr
      case cmd =>
        refine .inr ⟨cmdOp v, cmdIvsel v, ?_⟩
        rw [hr]; exact commandWrite_idle v (by simpa using h)
      case irqStatus => exact .inl ⟨_, _, _, _, _, _, _, _, hr, .inr ⟨v, rfl⟩, .inl rfl⟩
      case whi j =>
        exact .inl ⟨_, _, _, _, _, _, _, _, hr, .inl rfl,
          .inr ⟨j, v, by simpa [Reg.wellFormed] using hw, .inl rfl⟩⟩
      case wlo j =>
        exact .inl ⟨_, _, _, _, _, _, _, _, hr, .inl rfl,
          .inr ⟨j, v, by simpa [Reg.wellFormed] using hw, .inr rfl⟩⟩
      all_goals exact .inl ⟨_, _, _, _, _, _, _, _, hr, .inl rfl, .inl rfl⟩

/-- A transaction never stops the machine. -/
theorem hostStep_next (x : BusTxn) (s : State) : ∃ s', hostStep x s = .next s' := by
  by_cases h : s.phase = .idle
  · rcases hostStep_idle x h with ⟨_, _, _, _, _, _, _, _, hr, -⟩ | ⟨_, _, hr⟩ <;> exact ⟨_, hr⟩
  · obtain ⟨_, _, _, hr, -⟩ := hostStep_busy x h; exact ⟨_, hr⟩

/-! ### Turns -/

/-- The scheduled turn is the one taken. -/
@[simp] theorem step_givenTurn (s : State) (e : Turn) : step (s.givenTurn e) = takeTurn e s := rfl

@[simp] theorem takeTurn_host (x : BusTxn) (s : State) : takeTurn (.host x) s = hostStep x s := rfl
@[simp] theorem takeTurn_controller (s : State) : takeTurn .controller s = controllerStep s := rfl
@[simp] theorem takeTurn_aesCore (s : State) : takeTurn .aesCore s = aesCoreStep s := rfl
@[simp] theorem takeTurn_portResponse (b : Cipher) (s : State) :
    takeTurn (.portResponse b) s = presentResponse b s := rfl
@[simp] theorem takeTurn_reset (s : State) : takeTurn .reset s = .next (resetBlock s) := rfl

theorem step_cons {s : State} {e : Turn} {l : List Turn} (h : s.schedule = e :: l) :
    step s = takeTurn e { s with schedule := l } := by
  simp only [step, h]

theorem step_nil {s : State} (h : s.schedule = []) :
    step s = match ownTurn s with
      | some e => takeTurn e s
      | none => .next s := by
  cases hO : ownTurn s <;> simp only [step, h, hO]

/-- A step takes a turn, at the state with the rest of the schedule, or changes nothing. -/
theorem step_cases (s : State) :
    (∃ (e : Turn) (l : List Turn), step s = takeTurn e { s with schedule := l } ∧
      (s.schedule = e :: l ∨ (s.schedule = [] ∧ l = [] ∧ ownTurn s = some e))) ∨
    (step s = .next s ∧ s.schedule = [] ∧ ownTurn s = none) := by
  cases h : s.schedule with
  | cons e l => exact .inl ⟨e, l, step_cons h, .inl rfl⟩
  | nil =>
    rw [step_nil h]
    cases ho : ownTurn s with
    | none => exact .inr ⟨rfl, rfl, rfl⟩
    | some e => exact .inl ⟨e, [], by rw [← h], .inr ⟨rfl, rfl, rfl⟩⟩

/-- The Controller's turn: the running command's step, or nothing. -/
theorem controllerStep_eq {s : State} (h0 : s.phase ≠ .idle) (h1 : s.phase ≠ .wait) :
    controllerStep s = runningStep s := by
  unfold controllerStep
  rcases hp : s.phase with _ | _ | _ | _ | _ <;> simp_all

theorem controllerStep_none {s : State} (h : s.phase = .idle ∨ s.phase = .wait) :
    controllerStep s = .next s := by
  unfold controllerStep
  rcases h with h | h <;> rw [h]

/-- A response with a request outstanding is taken. -/
theorem presentResponse_eq (b : Cipher) {s : State} {r : AesReq} (h : s.phase = .wait)
    (hr : s.req = some r) : presentResponse b s = runningStep { s with aesRsp := some b } := by
  unfold presentResponse; rw [h, hr]

/-- A response without a request, or outside WAIT, is ignored. -/
theorem presentResponse_none (b : Cipher) {s : State} (h : s.phase ≠ .wait ∨ s.req = none) :
    presentResponse b s = .next s := by
  unfold presentResponse
  split
  · rename_i h1 h2; rcases h with h | h <;> simp_all
  · rfl

theorem aesCoreStep_eq {s : State} {r : AesReq} (h : s.phase = .wait) (hr : s.req = some r) :
    aesCoreStep s = runningStep { s with aesRsp := some (coreAnswer r) } := by
  simp only [aesCoreStep, hr]
  rw [presentResponse_eq _ h hr, hr]

theorem aesCoreStep_none {s : State} (h : s.phase ≠ .wait ∨ s.req = none) :
    aesCoreStep s = .next s := by
  unfold aesCoreStep
  cases hr : s.req with
  | none => rfl
  | some r => exact presentResponse_none _ h

/-- The answer a core's turn or a port response presents. -/
def presented (e : Turn) (s : State) : Option Cipher :=
  match e with
  | .aesCore => s.req.map coreAnswer
  | .portResponse b => some b
  | .host _ | .controller | .reset => none

/-- What a turn can do: a transaction; the running command's step, for the Controller outside WAIT,
for a response in WAIT; a reset; else nothing. -/
theorem takeTurn_cases (e : Turn) (s : State) :
    (∃ x, e = .host x ∧ takeTurn e s = hostStep x s) ∨
    (e = .controller ∧ s.phase ≠ .idle ∧ s.phase ≠ .wait ∧ takeTurn e s = runningStep s) ∨
    (∃ (r : AesReq) (b : Cipher), (e = .aesCore ∨ e = .portResponse b) ∧ s.phase = .wait ∧
      s.req = some r ∧ presented e s = some b ∧
      takeTurn e s = runningStep { s with aesRsp := some b }) ∨
    (e = .reset ∧ takeTurn e s = .next (resetBlock s)) ∨
    (takeTurn e s = .next s ∧ (e = .controller → s.phase = .idle ∨ s.phase = .wait) ∧
      ((e = .aesCore ∨ ∃ b, e = .portResponse b) → s.phase ≠ .wait ∨ s.req = none) ∧
      e ≠ .reset ∧ ∀ x, e ≠ .host x) := by
  cases e with
  | host x => exact .inl ⟨x, rfl, rfl⟩
  | controller =>
    by_cases h : s.phase = .idle ∨ s.phase = .wait
    · exact .inr (.inr (.inr (.inr ⟨controllerStep_none h, fun _ => h, by simp, by simp, by simp⟩)))
    · rw [not_or] at h
      exact .inr (.inl ⟨rfl, h.1, h.2, controllerStep_eq h.1 h.2⟩)
  | aesCore =>
    by_cases h : s.phase ≠ .wait ∨ s.req = none
    · exact .inr (.inr (.inr (.inr ⟨aesCoreStep_none h, by simp, fun _ => h, by simp, by simp⟩)))
    · rw [not_or, not_not] at h
      obtain ⟨r, hr⟩ := Option.ne_none_iff_exists'.1 h.2
      exact .inr (.inr (.inl ⟨r, coreAnswer r, .inl rfl, h.1, hr, by simp [presented, hr],
        aesCoreStep_eq h.1 hr⟩))
  | portResponse b =>
    by_cases h : s.phase ≠ .wait ∨ s.req = none
    · exact .inr (.inr (.inr (.inr ⟨presentResponse_none b h, by simp, fun _ => h, by simp, by simp⟩)))
    · rw [not_or, not_not] at h
      obtain ⟨r, hr⟩ := Option.ne_none_iff_exists'.1 h.2
      exact .inr (.inr (.inl ⟨r, b, .inr rfl, h.1, hr, rfl, presentResponse_eq b h.1 hr⟩))
  | reset => exact .inr (.inr (.inr (.inl ⟨rfl, rfl⟩)))

/-! ### Runs -/

theorem run_succ (k : Nat) {s t : State} (h : step s = .next t) :
    Host.Core.run Sys2Proof.core (k + 1) s = Host.Core.run Sys2Proof.core k t := by
  have h : Sys2Proof.core.step s = .next t := h
  simp only [Host.Core.run, h]

@[simp] theorem run_zero (s : State) : Host.Core.run Sys2Proof.core 0 s = .next s := rfl

/-- A longer run goes through its first step. -/
theorem run_succ_next {k : Nat} {s s' : State}
    (h : Host.Core.run Sys2Proof.core (k + 1) s = .next s') :
    ∃ t, step s = .next t ∧ Host.Core.run Sys2Proof.core k t = .next s' := by
  cases hs : step s with
  | next t => exact ⟨t, rfl, (run_succ k hs).symm.trans h⟩
  | fault r =>
    have hs : Sys2Proof.core.step s = .fault r := hs
    simp [Host.Core.run, hs] at h
  | refused r =>
    have hs : Sys2Proof.core.step s = .refused r := hs
    simp [Host.Core.run, hs] at h

/-- The first step of a run to IDLE. -/
theorem firstIdle_step {s t s' : State} {k : Nat} (h : step s = .next t) (hs : s.phase ≠ .idle)
    (hk : firstIdle t k s') : firstIdle s (k + 1) s' := by
  obtain ⟨h1, h2, h3⟩ := hk
  refine ⟨(run_succ k h).trans h1, h2, ?_⟩
  intro j hj u hu
  cases j with
  | zero => rw [run_zero] at hu; cases hu; exact hs
  | succ j => rw [run_succ j h] at hu; exact h3 j (by omega) u hu

/-- A run to IDLE from a busy state goes through its first step. -/
theorem firstIdle_cases {s s' : State} {k : Nat} (h : firstIdle s k s') (hs : s.phase ≠ .idle) :
    ∃ (l : Nat) (t : State), k = l + 1 ∧ step s = .next t ∧ firstIdle t l s' := by
  obtain ⟨h1, h2, h3⟩ := h
  cases k with
  | zero => rw [run_zero] at h1; cases h1; exact absurd h2 hs
  | succ l =>
    obtain ⟨t, ht, h1⟩ := run_succ_next h1
    exact ⟨l, t, rfl, ht, h1, h2, fun j hj u hu => h3 (j + 1) (by omega) u ((run_succ j ht).trans hu)⟩

theorem firstIdle_idle {s : State} (h : s.phase = .idle) : firstIdle s 0 s :=
  ⟨rfl, h, fun j hj => absurd hj (by omega)⟩

theorem firstIdle_idle_eq {s s' : State} {k : Nat} (h : firstIdle s k s') (hs : s.phase = .idle) :
    k = 0 ∧ s' = s := by
  obtain ⟨h1, h2, h3⟩ := h
  cases k with
  | zero => rw [run_zero] at h1; cases h1; exact ⟨rfl, rfl⟩
  | succ l => exact absurd hs (h3 0 (by omega) s rfl)

/-! ### The schedule, and induction to IDLE -/

theorem hostStep_schedule {x : BusTxn} {s s' : State} (hs : hostStep x s = .next s') :
    s'.schedule = s.schedule ∧ s'.coreLive = s.coreLive := by
  by_cases hp : s.phase = .idle
  · rcases hostStep_idle x hp with ⟨_, _, _, st, _, _, _, _, hr, hst, -⟩ | ⟨_, _, hr⟩ <;>
      rw [hr] at hs <;> cases hs <;> exact ⟨rfl, rfl⟩
  · obtain ⟨en, st, r, hr, -⟩ := hostStep_busy x hp
    rw [hr] at hs; cases hs; exact ⟨rfl, rfl⟩

/-- A turn leaves the turns to come and the premise about the core alone. -/
theorem takeTurn_schedule {e : Turn} {s s' : State} (hs : takeTurn e s = .next s') :
    s'.schedule = s.schedule ∧ s'.coreLive = s.coreLive := by
  rcases takeTurn_cases e s with ⟨x, rfl, hx⟩ | ⟨rfl, h1, h2, hx⟩ | ⟨r, b, hb, h1, h2, -, hx⟩ |
    ⟨rfl, hx⟩ | ⟨hx, -⟩ <;> rw [hx] at hs
  · exact hostStep_schedule hs
  · rcases runningStep_cases h1 h2 hs with ⟨c, v, m, rfl, -⟩ | ⟨-, -, -, rfl⟩ | ⟨-, -, rfl⟩
    · exact ⟨rfl, rfl⟩
    · rw [runningInit_eq]; exact ⟨rfl, rfl⟩
    · exact ⟨rfl, rfl⟩
  · obtain ⟨-, rfl⟩ := runningStep_response h1 hs; simp
  · cases hs; exact ⟨rfl, rfl⟩
  · cases hs; exact ⟨rfl, rfl⟩

/-- What every busy step keeps, and establishes when it ends the command, holds at the end. -/
theorem firstIdle_induct {P Q : State → Prop}
    (hstep : ∀ s t, P s → s.phase ≠ .idle → step s = .next t →
      (t.phase ≠ .idle → P t) ∧ (t.phase = .idle → Q t)) :
    ∀ (k : Nat) (s s' : State), P s → s.phase ≠ .idle → firstIdle s k s' → Q s' := by
  intro k
  induction k with
  | zero => intro s s' _ hs hf; obtain ⟨l, _, h, _⟩ := firstIdle_cases hf hs; omega
  | succ k ih =>
    intro s s' hP hs hf
    obtain ⟨l, t, hl, ht, hf⟩ := firstIdle_cases hf hs
    obtain ⟨h1, h2⟩ := hstep s t hP hs ht
    by_cases hq : t.phase = .idle
    · obtain ⟨-, rfl⟩ := firstIdle_idle_eq hf hq; exact h2 hq
    · exact ih t s' (h1 hq) hq (by rwa [show k = l by omega])

end Sys2Proof.Machine
end

