-- ==== Sys2Proof/Laws/Invariant.lean ====
section
/-! SUPPORT. Each operation keeps the invariant. -/

namespace Sys2Proof.Machine

open Sys2Proof

/-- In IDLE the invariant asks little. -/
theorem State.Inv.of_idle {s : State} (hp : s.phase = .idle) (h1 : 2 ≤ s.nmax.toNat)
    (h2 : Memory.wf s.mem = true) (h3 : ∀ c ∈ s.mem, inBuffer s.nmax.toNat c.1 = true)
    (h4 : s.a = 0 ∧ s.t = 0 ∧ s.opl = 0 ∧ s.nl = 0 ∧ s.kll = 0 ∧ s.ive = 0) (h5 : s.req = none)
    (h6 : s.valid = true → s.code = .ok) (h7 : s.aesRsp = none) : s.Inv where
  nmax_ge := h1
  mem_wf := h2
  mem_inside := h3
  idle_zero := fun _ => h4
  start_zero := fun h => by simp [hp] at h
  rounds_legal := fun h => by simp [State.inRounds, hp] at h
  round_range := fun h => by simp [State.inRounds, hp] at h
  wait_req := fun h => by simp [hp] at h
  no_req := fun _ => h5
  valid_ok := fun h => ⟨hp, h6 h⟩
  no_rsp := h7

/-- The interrupt registers, the response, the schedule and the premise about the core are free. -/
theorem State.Inv.env {s : State} (h : s.Inv) (en st : BitVec 3) (r : Option BusRsp)
    (l : List Turn) (c : Bool) :
    State.Inv { s with irqEnable := en, irqStatus := st, busRsp := r, schedule := l, coreLive := c } where
  nmax_ge := h.nmax_ge
  mem_wf := h.mem_wf
  mem_inside := h.mem_inside
  idle_zero := h.idle_zero
  start_zero := h.start_zero
  rounds_legal := h.rounds_legal
  round_range := h.round_range
  wait_req := h.wait_req
  no_req := h.no_req
  valid_ok := h.valid_ok
  no_rsp := h.no_rsp

theorem State.Inv.schedule {s : State} (h : s.Inv) (l : List Turn) :
    State.Inv { s with schedule := l } := h.env s.irqEnable s.irqStatus s.busRsp l s.coreLive

theorem State.Inv.of_schedule {s : State} {l : List Turn} (h : State.Inv { s with schedule := l }) :
    s.Inv := h.schedule s.schedule

/-- Completion leaves a good state. -/
theorem State.Inv.complete {s : State} (h1 : 2 ≤ s.nmax.toNat) (h2 : Memory.wf s.mem = true)
    (h3 : ∀ c ∈ s.mem, inBuffer s.nmax.toNat c.1 = true) (h7 : s.aesRsp = none) (c : ResultCode)
    (v : Bool) (hv : v = true → c = .ok) : (complete c v s).Inv :=
  .of_idle rfl h1 h2 h3 ⟨rfl, rfl, rfl, rfl, rfl, rfl⟩ rfl hv h7

/-- A reset block is a good state. -/
theorem State.Inv.resetBlock {s : State} (h1 : 2 ≤ s.nmax.toNat) : (resetBlock s).Inv :=
  .of_idle rfl h1 rfl (fun c hc => by simp at hc) ⟨rfl, rfl, rfl, rfl, rfl, rfl⟩ rfl
    (fun h => by cases h) rfl

/-- Acceptance keeps the invariant. -/
theorem State.Inv.accept {s : State} (h : s.Inv) (hp : s.phase = .idle) (op : BitVec 4) (b : Bool) :
    (accept op b s).Inv where
  nmax_ge := h.nmax_ge
  mem_wf := h.mem_wf
  mem_inside := h.mem_inside
  idle_zero := fun hq => by simp at hq
  start_zero := fun _ => ⟨(h.idle_zero hp).1, (h.idle_zero hp).2.1⟩
  rounds_legal := fun hq => by simp [State.inRounds] at hq
  round_range := fun hq => by simp [State.inRounds] at hq
  wait_req := fun hq => by simp at hq
  no_req := fun _ => h.no_req (by simp [hp])
  valid_ok := fun hq => by simp at hq
  no_rsp := h.no_rsp

/-- `init()` keeps the invariant. -/
theorem State.Inv.runningInit {s : State} (h : s.Inv) (hp : s.phase = .start)
    (hk : keyedOp s.opl = true) (hl : s.lengthsLegal = true) : s.runningInit.Inv := by
  have hb : s.nl.toNat ≤ 63 := by have := s.nl.isLt; omega
  rw [runningInit_eq]
  exact {
    nmax_ge := h.nmax_ge
    mem_wf := h.mem_wf
    mem_inside := h.mem_inside
    idle_zero := fun hq => by simp at hq
    start_zero := fun hq => by simp at hq
    rounds_legal := fun _ => ⟨hk, hl⟩
    round_range := fun _ => by
      have h1 := (lengthsLegal_iff.1 hl).2.1
      unfold State.roundLegal
      by_cases hn : s.nl = 1#6
      · simp [hn]
      · simp only [seed_nl, hn, if_false, seed_phase, seed_t, lastRound]
        by_cases ho : s.opl = 0x1#4
        · simp [ho]; omega
        · simp [ho]; omega
    wait_req := fun hq => by simp at hq
    no_req := fun _ => h.no_req (by simp [hp])
    valid_ok := fun hq => by have := (h.valid_ok hq).1; simp [hp] at this
    no_rsp := h.no_rsp }

/-- ISSUE keeps the invariant. -/
theorem State.Inv.issue {s : State} (h : s.Inv) (hp : s.phase = .issue) :
    (issue s.runningDir s.runningInput s).Inv where
  nmax_ge := h.nmax_ge
  mem_wf := h.mem_wf
  mem_inside := h.mem_inside
  idle_zero := fun hq => by simp at hq
  start_zero := fun hq => by simp at hq
  rounds_legal := fun _ => h.rounds_legal (by simp [State.inRounds, hp])
  round_range := fun _ => by
    have := h.round_range (by simp [State.inRounds, hp])
    simpa [State.roundLegal, hp] using this
  wait_req := fun _ => rfl
  no_req := fun hq => by simp at hq
  valid_ok := fun hq => by have := (h.valid_ok hq).1; simp [hp] at this
  no_rsp := h.no_rsp

/-- On the general path in WAIT, T is a round number. -/
theorem State.Inv.wait_round {s : State} (h : s.Inv) (hp : s.phase = .wait ∨ s.phase = .issue)
    (hn : s.nl ≠ 1#6) : 1 ≤ s.t.toNat ∧ s.t.toNat ≤ lastRound s.nl := by
  have hr := h.round_range (by rcases hp with hp | hp <;> simp [State.inRounds, hp])
  rcases hp with hp | hp <;> simpa [State.roundLegal, hp, hn] using hr

/-- On the n = 1 path T is 0. -/
theorem State.Inv.one_round {s : State} (h : s.Inv) (hp : s.inRounds = true)
    (hn : s.nl = 1#6) : s.t = 0#64 := by
  have hr := h.round_range hp
  simpa [State.roundLegal, hn] using hr

theorem lastRound_le (nl : BitVec 6) : lastRound nl ≤ 378 := by
  have := nl.isLt; unfold lastRound; omega

theorem toNat_add_one {t : BitVec 64} (h : t.toNat ≤ 378) : (t + 1).toNat = t.toNat + 1 := by
  rw [BitVec.toNat_add]; simp; omega

theorem toNat_sub_one {t : BitVec 64} (h : 1 ≤ t.toNat) : (t - 1).toNat = t.toNat - 1 := by
  have := t.isLt
  rw [BitVec.toNat_sub]; simp; omega

/-- What a round leaves of T and PHASE, in the range of R61. -/
theorem State.Inv.round_legal {s r : State} (h : s.Inv) (hp : s.phase = .wait)
    (hnl : r.nl = s.nl) (hopl : r.opl = s.opl)
    (ht : r.t = if s.nl = 1#6 then s.t else if s.opl = 0x1#4 then s.t + 1 else s.t - 1)
    (hph : r.phase = if s.nl = 1#6 ∨ (s.opl = 0x1#4 ∧ lastRound s.nl < (s.t + 1).toNat) ∨
      (s.opl ≠ 0x1#4 ∧ s.t - 1 = 0#64) then .finish else .issue) : r.roundLegal := by
  have hlast := lastRound_le s.nl
  unfold State.roundLegal
  rw [hnl, hopl, ht, hph]
  by_cases hn : s.nl = 1#6
  · rw [if_pos hn, if_pos hn]
    exact h.one_round (by simp [State.inRounds, hp]) hn
  · obtain ⟨ht1, ht2⟩ := h.wait_round (.inl hp) hn
    have ha := toNat_add_one (t := s.t) (by omega)
    have hs := toNat_sub_one ht1
    rw [if_neg hn, if_neg hn]
    by_cases ho : s.opl = 0x1#4
    · rw [if_pos ho, if_pos ho]
      by_cases hf : lastRound s.nl < (s.t + 1).toNat
      · rw [if_pos (by rw [if_pos (.inr (.inl ⟨ho, hf⟩))])]
        apply BitVec.eq_of_toNat_eq
        rw [ha, BitVec.toNat_ofNat, Nat.mod_eq_of_lt (by omega)]
        omega
      · rw [if_neg (by rw [if_neg (by tauto)]; decide), ha]
        omega
    · rw [if_neg ho, if_neg ho]
      by_cases hf : s.t - 1 = 0#64
      · rw [if_pos (by rw [if_pos (.inr (.inr ⟨ho, hf⟩))])]
        exact hf
      · have : (s.t - 1).toNat ≠ 0 := fun h0 => hf (BitVec.eq_of_toNat_eq (by simpa using h0))
        rw [if_neg (by rw [if_neg (by tauto)]; decide), hs]
        omega

theorem runningRound_phase_ne (op : BitVec 4) (b : Cipher) (s : State) :
    (runningRound op b s).phase = .issue ∨ (runningRound op b s).phase = .finish := by
  rw [runningRound_phase]; split <;> simp

/-- A round keeps the invariant, whatever the response was. -/
theorem State.Inv.round {s : State} (h : s.Inv) (hp : s.phase = .wait) (b : Cipher) :
    (runningRound s.opl b { s with req := none, aesRsp := none }).Inv := by
  obtain ⟨hk, hl⟩ := h.rounds_legal (by simp [State.inRounds, hp])
  obtain ⟨h0, h1, h2⟩ := lengthsLegal_iff.1 hl
  have hj := roundIndex_bounds h1
  have hph := runningRound_phase_ne s.opl b { s with req := none, aesRsp := none }
  exact {
    nmax_ge := by simpa using h.nmax_ge
    mem_wf := by rw [runningRound_mem]; exact Memory.wf_setSlot _ _ _ h.mem_wf
    mem_inside := by
      rw [runningRound_mem, runningRound_nmax]
      exact Memory.inside_setSlot (hj.2.trans h2) h.mem_inside
    idle_zero := fun hq => by rcases hph with e | e <;> rw [e] at hq <;> cases hq
    start_zero := fun hq => by rcases hph with e | e <;> rw [e] at hq <;> cases hq
    rounds_legal := fun _ => by
      rw [lengthsLegal_iff]
      simpa using And.intro hk (And.intro h0 (And.intro h1 h2))
    round_range := fun _ => h.round_legal hp (by simp) (by simp) (by rw [runningRound_t])
      (by rw [runningRound_phase])
    wait_req := fun hq => by rcases hph with e | e <;> rw [e] at hq <;> cases hq
    no_req := fun _ => by simp
    valid_ok := fun hq => by
      have := (h.valid_ok (by simpa using hq)).1; simp [hp] at this
    no_rsp := by simp }

/-- FINISH keeps the invariant. -/
theorem State.Inv.runningFinish {s : State} (h : s.Inv) : s.runningFinish.Inv := by
  unfold State.runningFinish wrapFinish unwrapFinish
  have hw : ∀ v, State.Inv (Machine.complete .ok true (s.setW 0 v)) := fun v =>
    .complete (s := s.setW 0 v) h.nmax_ge (Memory.wf_setSlot _ _ _ h.mem_wf)
      (Memory.inside_setSlot (Nat.zero_le _) h.mem_inside) h.no_rsp _ _ (fun _ => rfl)
  split
  · exact hw _
  · split
    · exact hw _
    · exact .complete (s := s.scrub) h.nmax_ge (Memory.wf_scrub _ _ h.mem_wf)
        (Memory.inside_filter _ h.mem_inside) h.no_rsp _ _ (fun hq => by cases hq)

/-- The running command's START keeps the invariant. -/
theorem State.Inv.start {s s' : State} (h : s.Inv) (hp : s.phase = .start)
    (hs : runningStep s = .next s') : s'.Inv := by
  rcases legalOp_cases s.opl with hk | ho | hl
  · rw [runningStep_start_keyed hp hk] at hs
    cases hs
    rcases startChecked_cases State.runningInit s with ⟨-, h1⟩ | ⟨-, -, h1⟩ | ⟨hl, h1⟩ <;> rw [h1]
    · exact .complete h.nmax_ge h.mem_wf h.mem_inside h.no_rsp _ _ (fun hq => by cases hq)
    · exact .complete h.nmax_ge h.mem_wf h.mem_inside h.no_rsp _ _ (fun hq => by cases hq)
    · exact h.runningInit hp hk hl
  · rw [runningStep_start_clear hp ho] at hs
    cases hs
    exact .complete (s := s.scrub) h.nmax_ge (Memory.wf_scrub _ _ h.mem_wf)
      (Memory.inside_filter _ h.mem_inside) h.no_rsp _ _ (fun hq => by cases hq)
  · rw [runningStep_start_illegal hp hl] at hs
    cases hs
    exact .complete h.nmax_ge h.mem_wf h.mem_inside h.no_rsp _ _ (fun hq => by cases hq)

/-- A transaction keeps the invariant. -/
theorem State.Inv.host {s s' : State} (h : s.Inv) (x : BusTxn) (hs : hostStep x s = .next s') :
    s'.Inv := by
  by_cases hp : s.phase = .idle
  · rcases hostStep_idle x hp with ⟨kl, n, en, st, iv, kek, m, r, hx, -, hm⟩ | ⟨op, b, hx⟩
    · rw [hx] at hs
      cases hs
      have hwf : Memory.wf m = true ∧ ∀ c ∈ m, inBuffer s.nmax.toNat c.1 = true := by
        rcases hm with rfl | ⟨j, v, hj, rfl | rfl⟩
        · exact ⟨h.mem_wf, h.mem_inside⟩
        · exact ⟨Memory.wf_writeWord _ _ _ h.mem_wf, Memory.inside_writeWord
            (by unfold slotOffset; omega) (by unfold slotOffset; omega) h.mem_inside⟩
        · exact ⟨Memory.wf_writeWord _ _ _ h.mem_wf, Memory.inside_writeWord
            (by unfold slotOffset; omega) (by unfold slotOffset; omega) h.mem_inside⟩
      exact .of_idle hp h.nmax_ge hwf.1 hwf.2 (h.idle_zero hp) (h.no_req (by simp [hp]))
        (fun hq => (h.valid_ok hq).2) h.no_rsp
    · rw [hx] at hs
      cases hs
      exact State.Inv.accept (s := answer none .okay s)
        (h.env s.irqEnable s.irqStatus _ s.schedule s.coreLive) hp op b
  · obtain ⟨en, st, r, hx, -⟩ := hostStep_busy x hp
    rw [hx] at hs
    cases hs
    exact h.env en st r s.schedule s.coreLive

end Sys2Proof.Machine
end

