-- ==== Sys2Proof/Laws/PerInstr.lean ====
section
/-! SUPPORT. Statements per command: encoding and decoding agree (30_encoding.md R150, R151). -/

namespace Sys2Proof.Laws.RoundTrip

open Sys2Proof

/-- The word of a command decodes to the command, with its IVSEL. -/
def Statement (i : Instr) : Prop := decode (encode i) = .ok i

theorem wrap (ivsel : Bool) : Statement (.wrap ivsel) := by
  unfold Statement; cases ivsel <;> decide

theorem unwrap (ivsel : Bool) : Statement (.unwrap ivsel) := by
  unfold Statement; cases ivsel <;> decide

theorem unwrapStrict (ivsel : Bool) : Statement (.unwrapStrict ivsel) := by
  unfold Statement; cases ivsel <;> decide

theorem clear (ivsel : Bool) : Statement (.clear ivsel) := by
  unfold Statement; cases ivsel <;> decide

end Sys2Proof.Laws.RoundTrip
end

