-- ==== Sys2Proof/Laws/Reference.lean ====
section
/-! SUPPORT. The data buffer as a list of blocks, and the lengths of the reference rounds. -/

namespace Sys2Proof.Machine

open Sys2Proof

@[simp] theorem slots_length (s : State) (f n : Nat) : (s.slots f n).length = n := by
  simp [State.slots]

theorem slots_getD (s : State) {n j : Nat} (h1 : 1 ≤ j) (h2 : j ≤ n) :
    (s.slots 1 n).getD (j - 1) 0 = s.w j := by
  rw [State.slots, List.getD_eq_getElem?_getD, List.getElem?_map, List.getElem?_range (by omega)]
  simp [show 1 + (j - 1) = j by omega]

theorem slots_congr {s t : State} {f n : Nat} (h : ∀ j, f ≤ j → j < f + n → s.w j = t.w j) :
    s.slots f n = t.slots f n := by
  unfold State.slots
  apply List.map_congr_left
  intro j hj
  rw [List.mem_range] at hj
  exact h _ (by omega) (by omega)

theorem slots_succ (s : State) (n : Nat) : s.slots 0 (n + 1) = s.w 0 :: s.slots 1 n := by
  simp [State.slots, List.range_succ_eq_map]
  intro a _
  rw [Nat.add_comm]

/-- A round sets the visited block of the list. -/
theorem slots_runningRound (op : BitVec 4) (b : Cipher) (s : State) (n : Nat)
    (h1 : 1 ≤ s.roundIndex) :
    (runningRound op b s).slots 1 n = (s.slots 1 n).set (s.roundIndex - 1) (lsb64 b) := by
  apply List.ext_getElem
  · simp
  · intro i h3 h4
    simp only [State.slots, List.getElem_map, List.getElem_range, runningRound_w, List.getElem_set]
    by_cases h : 1 + i = s.roundIndex
    · rw [if_pos h, if_pos (by omega)]
    · rw [if_neg h, if_neg (by omega)]

theorem refWrapRounds_length (enc : Cipher → Cipher) (k : Nat) (x : Block × List Block) :
    (refWrapRounds enc k x).2.length = x.2.length := by
  induction k with
  | zero => rfl
  | succ k ih => simp [refWrapRounds, refWrapRound, ih]

/-- The carousel visits one of the n blocks (40_carousel.md R235). -/
theorem carouselIndex_bounds (t : Nat) {n : Nat} (h : 1 ≤ n) :
    1 ≤ carouselIndex t n ∧ carouselIndex t n ≤ n := by
  unfold carouselIndex
  have := Nat.mod_lt (t - 1) (show n > 0 by omega)
  omega

end Sys2Proof.Machine
end

