-- ==== Sys2Proof/Tests/Slice0.lean ====
section
/-! SUPPORT. The model's own tests: decoding, well-formedness, single steps against the spec's vectors
(95_test_vectors.md V<n>), and, for every statement with hypotheses, a concrete case that meets them. -/

namespace Sys2Proof.Tests

open Sys2Proof Sys2Proof.Machine

/-! ### Decoding: words written out from 30_encoding.md R150 and R151 -/

theorem test_decode_wrap :
    decode (0b00000000000000000000000#23 ++ 0b0#1 ++ 0b0000#4 ++ 0b0001#4) = .ok (.wrap false) := by
  decide

theorem test_decode_wrap_iv :
    decode (0b00000000000000000000000#23 ++ 0b1#1 ++ 0b0000#4 ++ 0b0001#4) = .ok (.wrap true) := by
  decide

theorem test_decode_unwrap :
    decode (0b00000000000000000000000#23 ++ 0b0#1 ++ 0b0000#4 ++ 0b0010#4) = .ok (.unwrap false) := by
  decide

theorem test_decode_unwrap_strict_iv :
    decode (0b00000000000000000000000#23 ++ 0b1#1 ++ 0b0000#4 ++ 0b0011#4)
      = .ok (.unwrapStrict true) := by
  decide

theorem test_decode_clear :
    decode (0b00000000000000000000000#23 ++ 0b0#1 ++ 0b0000#4 ++ 0b0100#4) = .ok (.clear false) := by
  decide

/-- R153: every ignored bit set. -/
theorem test_decode_ignored_bits :
    decode (0b11111111111111111111111#23 ++ 0b0#1 ++ 0b1111#4 ++ 0b0001#4) = .ok (.wrap false) := by
  decide

/-- R160: the opcodes next to the legal ones. -/
theorem test_decode_illegal :
    decode 0x00000000#32 = .error (.illegalOpcode 0#4) ∧
    decode 0x00000105#32 = .error (.illegalOpcode 5#4) ∧
    decode 0xFFFFFFFF#32 = .error (.illegalOpcode 15#4) := by
  decide

theorem test_decode_table_words :
    decodeTableWord 32 0x00000101 = some (.wrap true) ∧
    decodeTableWord 32 0x00000002 = some (.unwrap false) ∧
    decodeTableWord 32 0x00000003 = some (.unwrapStrict false) ∧
    decodeTableWord 32 0x00000104 = some (.clear true) ∧
    decodeTableWord 32 0x00000006 = none := by
  decide

/-! ### Well-formedness: each check refuses an ill-formed term -/

theorem test_wf_reg : Reg.wellFormed 32 (.whi 33) = false ∧ Reg.wellFormed 32 (.wlo 33) = false ∧
    Reg.wellFormed 32 (.whi 32) = true ∧ Reg.wellFormed 32 (.kek 7) = true := by decide

theorem test_wf_txn_misaligned : BusTxn.wellFormed (.rd 0x002#12 .w32) = false ∧
    BusTxn.wellFormed (.wr 0x005#12 .w32 0#32) = false := by decide

theorem test_wf_txn_narrow : BusTxn.wellFormed (.rd 0x000#12 .w8) = false ∧
    BusTxn.wellFormed (.wr 0x004#12 .w16 0x3F03#32) = false ∧
    BusTxn.wellFormed (.wr 0x004#12 .w32 0x3F03#32) = true := by decide

theorem test_wf_line : ScriptLine.wellFormed 32 (.wr (.whi 33) 0#32) = false ∧
    ScriptLine.wellFormed 32 (.rd (.wlo 33)) = false ∧
    ScriptLine.wellFormed 32 (.cfg .k128 64) = false ∧
    ScriptLine.wellFormed 32 (.ldkek [1, 2, 3]) = false ∧
    ScriptLine.wellFormed 32 (.wr64W 33 0#64) = false ∧
    ScriptLine.wellFormed 32 (.rd64W 33) = false ∧
    ScriptLine.wellFormed 32 (.waitIdle 0) = false ∧
    ScriptLine.wellFormed 32 (.ldkek (List.replicate 24 0)) = true := by decide

/-- A command has no ill-formed term (R150). -/
theorem test_wf_command : (Instr.clear true).wellFormed = true := by decide

/-! ### States -/

/-- The next state. -/
def after : Outcome → State
  | .next s => s
  | .fault _ => State.reset
  | .refused _ => State.reset

/-- The step answers a next state. -/
def goesOn : Outcome → Bool
  | .next _ => true
  | .fault _ => false
  | .refused _ => false

theorem eq_next_of_goesOn {o : Outcome} (h : goesOn o = true) : o = .next (after o) := by
  cases o <;> first | rfl | cases h

/-- K128 in KEK0..KEK3. -/
def k128 : Key := 0x000102030405060708090A0B0C0D0E0F#128 ++ 0#128

/-- W[1..2] = P128. -/
def p128 : Memory := Memory.setSlot (Memory.setSlot [] 1 0x0011223344556677#64) 2 0x8899AABBCCDDEEFF#64

/-- V1's start with this CONFIG.N. -/
def loaded (n : BitVec 6) : State := { State.reset with n := n, kek := k128, mem := p128 }

/-- A running command at the given position; T and A as the fields say. -/
def running (op : BitVec 4) (nl : BitVec 6) (phase : Phase) (a : Block) (t : BitVec 64) : State :=
  { loaded nl with opl := op, nl := nl, ive := 0xA6A6A6A6A6A6A6A6#64, phase := phase, a := a, t := t }

/-- The response of V2's first round: MSB64(B) is F4740052E82A2251, LSB64(B) the new W[1]. -/
def b1 : Cipher := 0xF4740052E82A225174CE86FBD7B805E7#128

/-- WRAP with n = 2 in WAIT of its first round. -/
def wrapWait : State := after (exec (.wrap false) (running 0x1#4 2#6 .issue 0xA6A6A6A6A6A6A6A6#64 1#64))

/-- UNWRAP with n = 2 in WAIT of its last round (V10, t = 1). -/
def unwrapWait : State :=
  after (exec (.unwrap false) (running 0x2#4 2#6 .issue 0xF4740052E82A2250#64 1#64))

/-! ### WRAP -/

/-- V1's acceptance and START: A is IVE, T is 1. -/
theorem test_wrap_accept_start :
    let s := after (exec (.wrap false) (after (exec (.wrap false) (loaded 2#6))))
    s.phase = .issue ∧ s.a = 0xA6A6A6A6A6A6A6A6#64 ∧ s.t = 1#64 := by decide

/-- V2, round 1: the cipher input, then A, W[1] and T. -/
theorem test_wrap_round_one :
    wrapWait.req.map (·.blk) = some 0xA6A6A6A6A6A6A6A60011223344556677#128 ∧
    let s := after (step (wrapWait.givenTurn (.portResponse b1)))
    s.a = 0xF4740052E82A2250#64 ∧ s.w 1 = 0x74CE86FBD7B805E7#64 ∧
    s.w 2 = 0x8899AABBCCDDEEFF#64 ∧ s.t = 2#64 ∧ s.phase = .issue := by decide

/-- V4: the n = 1 path has no XOR, and T stays 0. -/
theorem test_wrap_degenerate :
    let s := { running 0x1#4 1#6 .wait 0xA6A6A6A6A6A6A6A6#64 0#64 with aesRsp := some b1 }
    let u := after (exec (.wrap false) s)
    u.a = 0xF4740052E82A2251#64 ∧ u.w 1 = 0x74CE86FBD7B805E7#64 ∧ u.t = 0#64 ∧ u.phase = .finish := by
  decide

/-- V2, after round 12: FINISH writes W[0] and completes with OK. -/
theorem test_wrap_finish :
    let s := after (exec (.wrap false) (running 0x1#4 2#6 .finish 0x1FA68B0A8112B447#64 13#64))
    s.w 0 = 0x1FA68B0A8112B447#64 ∧ statusWord s = 0x12#32 ∧ s.irqStatus = 1#3 ∧ s.kek = 0 := by decide

/-! ### UNWRAP and UNWRAP_STRICT -/

/-- V10: START takes A from W[0] and T is 12; the first cipher input XORs T into A only in passing. -/
theorem test_unwrap_start_issue :
    let m := Memory.setSlot (Memory.setSlot [] 0 0x1FA68B0A8112B447#64) 2 0x9D3E862371D2CFE5#64
    let s := after (exec (.unwrap false) { running 0x2#4 2#6 .start 0#64 0#64 with mem := m })
    s.t = 12#64 ∧ s.a = 0x1FA68B0A8112B447#64 ∧
    (after (exec (.unwrap false) s)).req.map (·.blk) = some 0x1FA68B0A8112B44B9D3E862371D2CFE5#128 ∧
    (after (exec (.unwrap false) s)).a = 0x1FA68B0A8112B447#64 := by decide

/-- V10, round 1: A is MSB64(B), T reaches 0. -/
theorem test_unwrap_round_one :
    let s := after (step (unwrapWait.givenTurn
      (.portResponse 0xA6A6A6A6A6A6A6A60011223344556677#128)))
    s.a = 0xA6A6A6A6A6A6A6A6#64 ∧ s.w 1 = 0x0011223344556677#64 ∧ s.t = 0#64 ∧
    s.phase = .finish := by decide

/-- V13: a wrong final A ends with STATUS 0x20 and an empty buffer. -/
theorem test_unwrap_finish_absent :
    let s := after (exec (.unwrap false) (running 0x2#4 2#6 .finish 0xECC2839D214839B6#64 0#64))
    statusWord s = 0x20#32 ∧ s.irqStatus = 1#3 ∧ s.mem = [] := by decide

/-- V14: the strict form ends with STATUS 0x30, DONE and ERR. -/
theorem test_unwrap_strict_finish_failed :
    let s := after (exec (.unwrapStrict false) (running 0x3#4 2#6 .finish 0xDEADBEEFC0FFEEEE#64 0#64))
    statusWord s = 0x30#32 ∧ s.irqStatus = 3#3 ∧ s.mem = [] ∧ s.kek = 0 := by decide

/-- V17: its success is UNWRAP's. -/
theorem test_unwrap_strict_finish_ok :
    let s := after (exec (.unwrapStrict false) (running 0x3#4 2#6 .finish 0xA6A6A6A6A6A6A6A6#64 0#64))
    statusWord s = 0x12#32 ∧ s.irqStatus = 1#3 ∧ s.w 0 = 0xA6A6A6A6A6A6A6A6#64 ∧
    s.w 2 = 0x8899AABBCCDDEEFF#64 := by decide

/-! ### CLEAR, illegal opcodes and validation (V20 to V25b) -/

/-- CMD written, then the Controller's step. -/
def commanded (config cmd : Word) : State :=
  let s := after (step ((loaded 2#6).givenTurn (.host (wrTxn .config config))))
  after (step ((after (step (s.givenTurn (.host (wrTxn .cmd cmd))))).givenTurn .controller))

theorem test_clear : let s := commanded 0x00000200#32 0x00000004#32
    statusWord s = 0x10#32 ∧ s.irqStatus = 1#3 ∧ s.mem = [] ∧ s.kek = 0 := by decide

/-- V21: CLEAR checks no CONFIG. -/
theorem test_clear_any_config : let s := commanded 0x00000003#32 0x00000104#32
    statusWord s = 0x10#32 ∧ s.irqStatus = 1#3 ∧ s.mem = [] := by decide

theorem test_illegal : let s := commanded 0x00000200#32 0x00000005#32
    statusWord s = 0x60#32 ∧ s.irqStatus = 3#3 ∧ s.mem = p128 ∧ s.kek = 0 := by decide

/-- V25: ILLEGAL_CMD comes first. -/
theorem test_illegal_first : statusWord (commanded 0x00000003#32 0x00000007#32) = 0x60#32 := by decide

theorem test_bad_keylen : let s := commanded 0x00000203#32 0x00000001#32
    statusWord s = 0x40#32 ∧ s.irqStatus = 3#3 ∧ s.mem = p128 := by decide

/-- V25b: BAD_KEYLEN before BAD_LENGTH. -/
theorem test_bad_keylen_first : statusWord (commanded 0x00002003#32 0x00000003#32) = 0x40#32 := by
  decide

theorem test_bad_length : statusWord (commanded 0x00000000#32 0x00000001#32) = 0x50#32 ∧
    statusWord (commanded 0x00002100#32 0x00000001#32) = 0x50#32 ∧
    statusWord (commanded 0x00003F00#32 0x00000002#32) = 0x50#32 := by decide

/-! ### The bus (V31 to V36, V41) -/

/-- The response of a transaction. -/
def rsp (x : BusTxn) (s : State) : Option BusRsp := (after (step (s.givenTurn (.host x)))).busRsp

theorem test_bus_from_reset :
    rsp (.rd 0x000#12 .w32) State.reset = some ⟨some 0x20#32, .okay⟩ ∧
    rsp (.rd 0x002#12 .w32) State.reset = some ⟨some 0#32, .error⟩ ∧
    rsp (.rd 0x000#12 .w8) State.reset = some ⟨some 0#32, .error⟩ ∧
    rsp (.wr 0x004#12 .w16 0x3F03#32) State.reset = some ⟨none, .error⟩ ∧
    rsp (.rd 0x01C#12 .w32) State.reset = some ⟨some 0#32, .error⟩ ∧
    rsp (.wr 0x01C#12 .w32 1#32) State.reset = some ⟨none, .error⟩ ∧
    rsp (.rd 0x208#12 .w32) State.reset = some ⟨some 0#32, .error⟩ ∧
    rsp (.rd 0x200#12 .w32) State.reset = some ⟨some 0#32, .okay⟩ ∧
    rsp (.rd 0x008#12 .w32) State.reset = some ⟨some 0#32, .okay⟩ ∧
    rsp (.rd 0x020#12 .w32) State.reset = some ⟨some 0xA6A6A6A6#32, .okay⟩ := by
  and_intros <;> decide +kernel

/-- V32. -/
theorem test_config_mask :
    rsp (rdTxn .config) (after (step (State.reset.givenTurn (.host (wrTxn .config 0xFFFFFFFF#32)))))
      = some ⟨some 0x3F03#32, .okay⟩ := by decide

/-- V34. -/
theorem test_w1c_and_irq :
    let s0 : State := { State.reset with irqStatus := 7#3 }
    let s1 := after (step (s0.givenTurn (.host (wrTxn .irqStatus 0x2#32))))
    let s2 := after (step (s1.givenTurn (.host (wrTxn .irqEnable 0x4#32))))
    let s3 := after (step (s2.givenTurn (.host (wrTxn .irqStatus 0x4#32))))
    s1.irqStatus = 5#3 ∧ s1.irq = false ∧ s2.irq = true ∧ s3.irqStatus = 1#3 ∧ s3.irq = false := by
  decide

/-- V35: while BUSY the buffer reads 0 and a write to it is dropped. -/
theorem test_busy_buffer :
    rsp (rdTxn (.whi 1)) wrapWait = some ⟨some 0#32, .okay⟩ ∧
    let s := after (step (wrapWait.givenTurn (.host (wrTxn (.whi 1) 0x12345678#32))))
    s.busRsp = some ⟨none, .okay⟩ ∧ s.irqDrop = true ∧ s.w 1 = 0x0011223344556677#64 := by
  and_intros <;> decide +kernel

/-- V36, and the KEK reads 0. -/
theorem test_kek_packing :
    let s := after (step (State.reset.givenTurn (.host (wrTxn (.kek 0) 0x00010203#32))))
    let u := after (step (s.givenTurn (.host (wrTxn (.kek 7) 0x1C1D1E1F#32))))
    u.kek = (0x00010203#32 ++ 0#192 ++ 0x1C1D1E1F#32 : BitVec 256) ∧
    rsp (rdTxn (.kek 0)) u = some ⟨some 0#32, .okay⟩ := by decide

/-- 20_memory.md R101: byte 0 of a slot is its most significant. -/
theorem test_big_endian : Memory.readByte p128 0x108 = 0x00#8 ∧ Memory.readByte p128 0x109 = 0x11#8 ∧
    Memory.readByte p128 0x10F = 0x77#8 ∧ Memory.readByte p128 0x117 = 0xFF#8 := by decide

/-- V8: the largest ROUND, 6·32 + 1. -/
theorem test_last_round_of_n_max :
    let s := { running 0x1#4 32#6 .wait 0#64 192#64 with aesRsp := some b1 }
    let u := after (exec (.wrap false) s)
    roundWord u = 193#32 ∧ u.phase = .finish ∧ u.w 32 = 0x74CE86FBD7B805E7#64 := by decide

/-- A word placed by `withFetchWord` is accepted by the very next step, from reset and from a running
command alike. -/
theorem test_with_fetch_word :
    (after (step (State.reset.withFetchWord 32 0x101))).opl = 0x1#4 ∧
    (after (step (State.reset.withFetchWord 32 0x101))).phase = .start ∧
    (after (step (wrapWait.withFetchWord 32 0x4))).opl = 0x4#4 := by decide

/-! ### Cases that meet the statements' hypotheses

`witness_<Statement>` is about the hypotheses of `Obligations.<Statement>`. -/

theorem witness_UnperformedAccessDoesNothing :
    (Width.w8 ≠ .w32 ∨ (0x000#12 : Offset).toNat % 4 ≠ 0) ∧
    (Width.w32 ≠ .w32 ∨ (0x00D#12 : Offset).toNat % 4 ≠ 0) ∧
    (Width.w32 ≠ .w32 ∨ (0xFFF#12 : Offset).toNat % 4 ≠ 0) := by decide

/-- The holes of the window for N_MAX = 32: between the registers, after KEK7, after the last slot. -/
theorem witness_ReservedOffsetErrors :
    ∀ a ∈ [0x01C, 0x028, 0x03C, 0x060, 0x0FC, 0x208, 0xFFC], a % 4 = 0 ∧
      ∀ r : Reg, r.wellFormed State.reset.nmax.toNat = true → regOffset r ≠ a := by
  intro a ha
  have h : ∀ a ∈ [0x01C, 0x028, 0x03C, 0x060, 0x0FC, 0x208, 0xFFC],
      a % 4 = 0 ∧ regAt State.reset.nmax.toNat a = none := by decide
  refine ⟨(h a ha).1, fun r hr he => ?_⟩
  have h1 := regAt_regOffset hr
  rw [he, (h a ha).2] at h1
  cases h1

theorem witness_RegisterMapIsTheTable : (0x000 : Nat) % 4 = 0 ∧ (0x204 : Nat) % 4 = 0 ∧
    (0xFFC : Nat) % 4 = 0 := by decide

theorem witness_ReadReturnsTheRegister : Reg.wellFormed State.reset.nmax.toNat (.whi 32) = true ∧
    Reg.wellFormed State.reset.nmax.toNat (.wlo 0) = true ∧
    Reg.wellFormed State.reset.nmax.toNat (.kek 7) = true := by decide

theorem witness_BusyWriteIsDropped : wrapWait.phase ≠ .idle ∧
    ∀ r ∈ [Reg.config, .cmd, .ivHi, .ivLo, .kek 7, .whi 32, .wlo 0],
      r.wellFormed wrapWait.nmax.toNat = true ∧ r ≠ .hwcfg ∧ r ≠ .status ∧ r ≠ .round ∧
      r ≠ .irqEnable ∧ r ≠ .irqStatus := by decide

/-- For BusyWrite's counterparts while IDLE: IdleWriteSetsConfigAndIv, IdleWriteSetsOneKekWord,
IdleWriteSetsOneBufferWord (slots 0 and N_MAX), CmdWriteIsAcceptedWhileIdle,
CommandLatchesItsInputs, DefaultIvInRegisterIsIvselZero. -/
theorem witness_idle_statements : State.reset.phase = .idle ∧ 0 ≤ State.reset.nmax.toNat ∧
    32 ≤ State.reset.nmax.toNat ∧ State.reset.iv = 0xA6A6A6A6A6A6A6A6#64 ∧
    State.reset.schedule = [] ∧ State.reset.coreLive = true := by decide

/-- A state whose schedule is a LDKEK of 32 bytes. -/
def ldkekState : State :=
  { State.reset with schedule := scriptTurns [.ldkek (List.replicate 32 0x5A#8)] }

theorem witness_LdkekLoadsThirtyTwoBytes : (List.replicate 32 0x5A#8).length = 32 ∧
    ldkekState.phase = .idle ∧
    ldkekState.schedule = scriptTurns [.ldkek (List.replicate 32 0x5A#8)] := by decide

theorem witness_StartRefusesBadLengths :
    (∀ b, Instr.wrap true ≠ .clear b) ∧
    (let s : State := { running 0x1#4 2#6 .start 0 0 with kll := 3#2 };
      s.phase = .start ∧ s.kll = 3#2) ∧
    (let s := running 0x1#4 0#6 .start 0 0;
      s.phase = .start ∧ s.kll ≠ 3#2 ∧ (s.nl = 0#6 ∨ s.nmax.toNat < s.nl.toNat)) ∧
    (let s := running 0x1#4 33#6 .start 0 0;
      s.phase = .start ∧ s.kll ≠ 3#2 ∧ (s.nl = 0#6 ∨ s.nmax.toNat < s.nl.toNat)) := by decide

theorem witness_StartSeedsTheRounds : ∀ n ∈ [1#6, 2#6, 32#6],
    let s := running 0x1#4 n .start 0 0
    s.phase = .start ∧ s.kll ≠ 3#2 ∧ s.nl ≠ 0#6 ∧ s.nl.toNat ≤ s.nmax.toNat := by decide

theorem witness_IssueSendsTheRoundsRequest : ∀ x ∈ [(1#6, 0#64, 1), (2#6, 1#64, 1), (2#6, 12#64, 2),
      (32#6, 192#64, 32)],
    let s := running 0x1#4 x.1 .issue 0 x.2.1
    s.phase = .issue ∧ x.2.2 = (if s.nl = 1#6 then 1 else (s.t.toNat - 1) % s.nl.toNat + 1) := by decide

/-- For WrapRoundUpdatesAAndTheVisitedSlot and UnwrapRoundUpdatesAAndTheVisitedSlot. -/
theorem witness_round_statements : ∀ x ∈ [(1#6, 0#64, 1), (2#6, 1#64, 1), (2#6, 12#64, 2),
      (32#6, 192#64, 32)],
    let s := { running 0x1#4 x.1 .wait 0 x.2.1 with aesRsp := some b1 }
    s.phase = .wait ∧ s.aesRsp = some b1 ∧
    x.2.2 = (if s.nl = 1#6 then 1 else (s.t.toNat - 1) % s.nl.toNat + 1) := by decide

/-- For WrapFinishWritesTheIntegrityBlock, UnwrapFinishAcceptsEqualIv, UnwrapFinishScrubsOnMismatch and
ClearZeroesTheBuffer. -/
theorem witness_finish_statements :
    (running 0x1#4 2#6 .finish 0 13#64).phase = .finish ∧
    (let s := running 0x2#4 2#6 .finish 0xA6A6A6A6A6A6A6A6#64 0;
      s.phase = .finish ∧ s.a = s.ive) ∧
    (let s := running 0x3#4 2#6 .finish 0xDEADBEEFC0FFEEEE#64 0;
      s.phase = .finish ∧ s.a ≠ s.ive) ∧
    (running 0x4#4 0#6 .start 0 0).phase = .start := by decide

theorem witness_IllegalOpcodeCompletesAtStart : ∀ op ∈ [0#4, 5#4, 15#4],
    let s := running op 2#6 .start 0 0
    s.phase = .start ∧ (s.opl = 0#4 ∨ 5 ≤ s.opl.toNat) := by decide

theorem witness_StepRunsTheDecodedCommand :
    (State.reset.phase = .idle ∧ decode 0x00000102#32 = .ok (.unwrap true)) ∧
    decodeTableWord 32 0x00000004 = some (.clear false) ∧
    (let s := running 0x3#4 2#6 .issue 0 1#64;
      (Instr.unwrapStrict false).opcode = s.opl ∧
        (s.phase = .start ∨ s.phase = .issue ∨ s.phase = .finish)) ∧
    ((Instr.wrap false).opcode = wrapWait.opl ∧ wrapWait.phase = .wait ∧ wrapWait.req ≠ none) := by
  decide

theorem witness_TurnsWithoutAnEnabledStepChangeNothing : State.reset.req = none ∧
    (State.reset.phase = .idle ∨ State.reset.phase = .wait) ∧
    (wrapWait.phase = .idle ∨ wrapWait.phase = .wait) ∧
    State.reset.schedule = [] ∧ State.reset.phase = .idle := by decide

theorem witness_EventsAreClearedOnlyByAcknowledgement :
    let s : State := { State.reset with irqStatus := 7#3 }
    let e : Turn := .host (wrTxn .irqStatus 0x2#32)
    goesOn (step (s.givenTurn e)) = true ∧ s.irqStatus.getLsbD 1 = true ∧
    (after (step (s.givenTurn e))).irqStatus.getLsbD 1 = false := by decide

theorem witness_ResetMeetsTheInvariant : 2 ≤ (2#6).toNat ∧ 2 ≤ (63#6).toNat := by decide

/-! ### States that meet the invariant -/

theorem reset_inv : State.reset.Inv :=
  State.Inv.resetBlock (s := State.reset) (by decide)

theorem loaded_inv (n : BitVec 6) : (loaded n).Inv :=
  .of_idle rfl (show 2 ≤ (32#6).toNat by decide) (show Memory.wf p128 = true by decide)
    (show ∀ c ∈ p128, inBuffer 32 c.1 = true by decide) ⟨rfl, rfl, rfl, rfl, rfl, rfl⟩ rfl
    (fun h => by cases h) rfl

/-- An accepted command on V1's data: WRAP, UNWRAP and UNWRAP_STRICT with n, at their START. -/
def started (op : BitVec 4) (n : BitVec 6) : State := accept op false (loaded n)

theorem started_inv (op : BitVec 4) (n : BitVec 6) : (started op n).Inv :=
  (loaded_inv n).accept rfl op false

theorem wrapWait_inv : wrapWait.Inv where
  nmax_ge := by decide
  mem_wf := by decide
  mem_inside := by decide
  idle_zero := by decide
  start_zero := by decide
  rounds_legal := by decide
  round_range := fun _ => by unfold State.roundLegal; decide
  wait_req := by decide
  no_req := by decide
  valid_ok := by decide
  no_rsp := by decide

/-- For StepNeverStops, RoundCounterStaysInRange and RequestStandsExactlyInWait: reset, START, WAIT, and
the n = 1 path. -/
theorem witness_invariant_statements : State.reset.Inv ∧ (started 0x1#4 2#6).Inv ∧ wrapWait.Inv ∧
    wrapWait.phase = .wait ∧ wrapWait.req = some wrapWait.runningReq ∧
    wrapWait.t.toNat = 1 ∧ ((started 0x1#4 1#6).Inv ∧ (started 0x1#4 1#6).nl = 1#6) :=
  ⟨reset_inv, started_inv _ _, wrapWait_inv, by decide, by decide, by decide, started_inv _ _, rfl⟩

/-- A step from an invariant state to a next state. -/
theorem witness_StepKeepsTheInvariant : wrapWait.Inv ∧
    goesOn (step (wrapWait.givenTurn (.portResponse b1))) = true := ⟨wrapWait_inv, by decide⟩

/-- A write that is performed, and one that is dropped. -/
theorem witness_WritesAreIdempotent : (State.reset.Inv ∧ wrapWait.Inv) ∧
    Reg.whi 32 ≠ .cmd ∧ (Reg.whi 32).wellFormed 32 = true ∧
    goesOn (step (State.reset.givenTurn (.host (wrTxn (.whi 32) 7#32)))) = true ∧
    goesOn (step (wrapWait.givenTurn (.host (wrTxn (.whi 32) 7#32)))) = true :=
  ⟨⟨reset_inv, wrapWait_inv⟩, by decide, by decide, by decide, by decide⟩

/-! ### Turns of a running command: what ends it, what does not -/

/-- For RunningCommandsInputsAreFrozen, and the running half of EachOwnStepCountsOne. -/
theorem witness_running_turns :
    wrapWait.phase ≠ .idle ∧ Turn.controller ≠ .reset ∧
    (∀ e ∈ [Turn.controller, .portResponse b1, .host (rdTxn .status), .host (wrTxn (.kek 0) 1#32)],
      goesOn (step (wrapWait.givenTurn e)) = true ∧
      (after (step (wrapWait.givenTurn e))).phase ≠ .idle) := by decide

/-- For CompletionPostsItsEvents: the last step of a command, the key there before, the flags posted
after. -/
theorem witness_ending_turn :
    let s := running 0x1#4 2#6 .finish 0x1FA68B0A8112B447#64 13#64
    let t := after (step (s.givenTurn .controller))
    s.phase ≠ .idle ∧ s.kek ≠ 0 ∧ goesOn (step (s.givenTurn .controller)) = true ∧ t.phase = .idle ∧
    t.code ≠ s.code ∧ t.valid ≠ s.valid ∧ t.irqDone = true ∧ s.irqDone = false := by decide

/-- The schedule may name no one: then FINISH is the enabled step. -/
theorem witness_NoKeyOutlivesItsCommand :
    let s := running 0x1#4 2#6 .finish 0x1FA68B0A8112B447#64 13#64
    s.phase ≠ .idle ∧ goesOn (step s) = true ∧ (after (step s)).phase = .idle := by decide

theorem witness_FlagsChangeOnlyAtTheirSteps :
    (let s : State := { State.reset with valid := true, code := .ok };
      let t := after (step (s.givenTurn (.host (wrTxn .cmd 1#32))));
      goesOn (step (s.givenTurn (.host (wrTxn .cmd 1#32)))) = true ∧ t.valid ≠ s.valid ∧ t.code = s.code) ∧
    (let s := running 0x3#4 2#6 .finish 0xDEADBEEFC0FFEEEE#64 0#64;
      let t := after (step (s.givenTurn .controller));
      t.irqErr = true ∧ s.irqErr = false) ∧
    (let t := after (step (wrapWait.givenTurn (.host (wrTxn (.kek 0) 1#32))));
      t.irqDrop = true ∧ wrapWait.irqDrop = false) := by decide

/-- Two states apart in the KEK only. -/
theorem witness_KekIsInvisibleToTheHost :
    let t : State := { wrapWait with kek := 0, req := wrapWait.req.map AesReq.hideKey }
    wrapWait.hideKey = t.hideKey ∧ wrapWait ≠ t := by decide

theorem witness_SlotsAboveNAreUntouched : wrapWait.Inv ∧ wrapWait.phase ≠ .idle ∧
    Turn.portResponse b1 ≠ .reset ∧ wrapWait.nl.toNat < 3 ∧ 32 ≤ wrapWait.nmax.toNat :=
  ⟨wrapWait_inv, by decide, by decide, by decide, by decide⟩

theorem witness_StrictUnwrapDiffersOnlyInTheFailureCode :
    (unwrapWait.phase ≠ .idle ∧ unwrapWait.opl = 0x2#4 ∧
      (after (step (unwrapWait.givenTurn (.portResponse b1)))).phase ≠ .idle) ∧
    (let s := running 0x2#4 2#6 .finish 0xECC2839D214839B6#64 0#64;
      let t := after (step (s.givenTurn .controller));
      goesOn (step (s.givenTurn .controller)) = true ∧ t.phase = .idle ∧ t.code = .absent) ∧
    (let s := running 0x2#4 2#6 .finish 0xA6A6A6A6A6A6A6A6#64 0#64;
      let t := after (step (s.givenTurn .controller));
      goesOn (step (s.givenTurn .controller)) = true ∧ t.phase = .idle ∧ t.code ≠ .absent) := by decide

theorem xor_low_bit (key : Key) {m b : Nat} (h : m < b) :
    key.getLsbD b = (key ^^^ (1#256 <<< m)).getLsbD b := by
  simp [show ¬ b - m = 0 by omega]

/-- Two keys apart in the highest unused bit only, for 16 used bytes and for 24. -/
theorem witness_AesCoreInvertsAndUsesTheUsedBytes : (0#2 : BitVec 2) ≠ 3#2 ∧ (1#2 : BitVec 2) ≠ 3#2 ∧
    k128 ≠ k128 ^^^ (1#256 <<< 127) ∧ k128 ≠ k128 ^^^ (1#256 <<< 63) ∧
    (∀ b, 256 - 8 * (16 + 8 * (0#2 : BitVec 2).toNat) ≤ b →
      k128.getLsbD b = (k128 ^^^ (1#256 <<< 127)).getLsbD b) ∧
    (∀ b, 256 - 8 * (16 + 8 * (1#2 : BitVec 2).toNat) ≤ b →
      k128.getLsbD b = (k128 ^^^ (1#256 <<< 63)).getLsbD b) :=
  ⟨by decide, by decide, by decide, by decide,
    fun _ hb => xor_low_bit _ (show 127 < _ from hb), fun _ hb => xor_low_bit _ (show 63 < _ from hb)⟩

/-- For EachOwnStepCountsOne: steps and calls counted from START (V42). -/
theorem witness_counting_statements :
    stepsLeft (started 0x1#4 1#6) = 4 ∧ callsLeft (started 0x1#4 1#6) = 1 ∧
    stepsLeft (started 0x2#4 2#6) = 26 ∧ callsLeft (started 0x2#4 2#6) = 12 ∧
    stepsLeft (started 0x3#4 32#6) = 386 ∧ callsLeft (started 0x3#4 32#6) = 192 ∧
    stepsLeft (started 0x4#4 2#6) = 1 ∧ callsLeft (started 0x4#4 2#6) = 0 ∧
    stepsLeft (started 0x1#4 33#6) = 1 := by decide

theorem witness_EachIssueIsOneCall :
    let s := running 0x1#4 2#6 .issue 0 1#64
    let t := after (step (s.givenTurn .controller))
    goesOn (step (s.givenTurn .controller)) = true ∧ t.phase = .wait ∧ s.phase = .issue := by decide

theorem witness_RunningCommandEndsOnTime : (started 0x1#4 2#6).Inv ∧
    (started 0x1#4 2#6).schedule = [] ∧ (started 0x1#4 2#6).coreLive = true :=
  ⟨started_inv _ _, rfl, rfl⟩

/-- Host traffic and wasted turns before the schedule is used up. -/
theorem witness_RunningCommandEndsUnderAnySchedule :
    let s : State := { started 0x1#4 2#6 with
      schedule := [.host (rdTxn .status), .controller, .aesCore, .host (wrTxn .cmd 4#32)] }
    s.Inv ∧ s.undisturbed = true ∧ s.coreLive = true :=
  ⟨(started_inv _ _).schedule _, by decide, rfl⟩

theorem witness_SilentCoreHangsTheCommand :
    let s : State := { wrapWait with coreLive := false, schedule := [.host (rdTxn .status), .controller] }
    s.phase = .wait ∧ s.coreLive = false ∧
    ∀ e ∈ s.schedule, (∃ t, e = .host t) ∨ e = .controller := by
  refine ⟨by decide, rfl, fun e he => ?_⟩
  simp at he
  rcases he with rfl | rfl
  · exact .inl ⟨_, rfl⟩
  · exact .inr rfl

/-! ### Runs to IDLE, for n = 1 -/

/-- WRAP on V4's data. -/
def wrapOne : State := started 0x1#4 1#6

/-- Its end, four steps later. -/
def wrapOneEnd : State := after (Host.Core.run Sys2Proof.core 4 wrapOne)

theorem wrapOne_run : firstIdle wrapOne 4 wrapOneEnd :=
  firstIdle_step rfl (by decide) (firstIdle_step rfl (by decide) (firstIdle_step rfl (by decide)
    (firstIdle_step rfl (fun h => by cases h) (firstIdle_idle rfl))))

theorem witness_WrapComputesTheReference : wrapOne.Inv ∧ wrapOne.phase = .start ∧
    wrapOne.opl = 0x1#4 ∧ wrapOne.lengthsLegal = true ∧ wrapOne.undisturbed = true ∧
    firstIdle wrapOne 4 wrapOneEnd :=
  ⟨started_inv _ _, rfl, rfl, by decide, rfl, wrapOne_run⟩

/-- An unwrap of the buffer `m` with n = 1, with this IV in the register. -/
def unwrapOne (op : BitVec 4) (ivsel : Bool) (iv : Block) (m : Memory) : State :=
  accept op ivsel { loaded 1#6 with iv := iv, mem := m }

theorem unwrapOne_run (op : BitVec 4) (ho : op = 0x2#4 ∨ op = 0x3#4) (b : Bool) (iv : Block)
    (m : Memory) : ∃ s', firstIdle (unwrapOne op b iv m) 4 s' := by
  rcases ho with rfl | rfl <;>
  exact ⟨_, firstIdle_step rfl (fun h => by cases h) (firstIdle_step rfl (fun h => by cases h)
    (firstIdle_step rfl (fun h => by cases h) (firstIdle_step rfl (fun h => by cases h) (firstIdle_idle
      (by unfold unwrapFinish; split <;> rfl)))))⟩

theorem unwrapOne_inv (op : BitVec 4) (b : Bool) (iv : Block) (m : Memory) (h1 : Memory.wf m = true)
    (h2 : ∀ c ∈ m, inBuffer 32 c.1 = true) : (unwrapOne op b iv m).Inv :=
  State.Inv.accept (.of_idle rfl (show 2 ≤ (32#6).toNat by decide) h1 h2 ⟨rfl, rfl, rfl, rfl, rfl, rfl⟩ rfl
    (fun h => by cases h) rfl) rfl op b

theorem wrapOneEnd_mem : Memory.wf wrapOneEnd.mem = true ∧
    ∀ c ∈ wrapOneEnd.mem, inBuffer 32 c.1 = true :=
  ⟨Memory.wf_setSlot _ _ _ (Memory.wf_setSlot _ _ _ (by decide)),
    Memory.inside_setSlot (by decide) (Memory.inside_setSlot (by decide) (by decide))⟩

theorem witness_UnwrapComputesTheReference : ∃ s',
    let u := unwrapOne 0x3#4 false 0 wrapOneEnd.mem
    u.Inv ∧ u.phase = .start ∧ (u.opl = 0x2#4 ∨ u.opl = 0x3#4) ∧ u.lengthsLegal = true ∧
    u.undisturbed = true ∧ firstIdle u 4 s' := by
  obtain ⟨s', h⟩ := unwrapOne_run 0x3#4 (.inr rfl) false 0 wrapOneEnd.mem
  exact ⟨s', unwrapOne_inv _ _ _ _ wrapOneEnd_mem.1 wrapOneEnd_mem.2, rfl, .inr rfl, rfl, rfl, h⟩

theorem witness_ReferenceRoundTrip : (∀ x : Cipher, id (id x) = x) ∧ [(7 : Block)] ≠ [] :=
  ⟨fun _ => rfl, by decide⟩

/-- Both hypotheses' runs: the WRAP, and an unwrap of what it left, with the same IV. -/
theorem witness_BlockRoundTrip : ∃ u',
    let u := unwrapOne 0x2#4 false 0 wrapOneEnd.mem
    firstIdle wrapOne 4 wrapOneEnd ∧ u.Inv ∧ u.phase = .start ∧ u.lengthsLegal = true ∧
    u.undisturbed = true ∧ firstIdle u 4 u' ∧ u.kll = wrapOne.kll ∧ u.nl = wrapOne.nl ∧
    u.ive = wrapOne.ive ∧ usedKey u.kll u.kek = usedKey wrapOne.kll wrapOne.kek ∧
    u.slots 0 (wrapOne.nl.toNat + 1) = wrapOneEnd.slots 0 (wrapOne.nl.toNat + 1) := by
  obtain ⟨u', h⟩ := unwrapOne_run 0x2#4 (.inl rfl) false 0 wrapOneEnd.mem
  exact ⟨u', wrapOne_run, unwrapOne_inv _ _ _ _ wrapOneEnd_mem.1 wrapOneEnd_mem.2, rfl, rfl, rfl, h,
    rfl, rfl, rfl, rfl, rfl⟩

/-- The same with another IV. -/
theorem witness_IvMismatchIsDetected : ∃ u',
    let u := unwrapOne 0x2#4 true 0xDEADBEEFC0FFEEEE#64 wrapOneEnd.mem
    firstIdle wrapOne 4 wrapOneEnd ∧ u.Inv ∧ u.phase = .start ∧ u.lengthsLegal = true ∧
    u.undisturbed = true ∧ firstIdle u 4 u' ∧ u.kll = wrapOne.kll ∧ u.nl = wrapOne.nl ∧
    u.ive ≠ wrapOne.ive ∧ usedKey u.kll u.kek = usedKey wrapOne.kll wrapOne.kek ∧
    u.slots 0 (wrapOne.nl.toNat + 1) = wrapOneEnd.slots 0 (wrapOne.nl.toNat + 1) := by
  obtain ⟨u', h⟩ := unwrapOne_run 0x2#4 (.inl rfl) true 0xDEADBEEFC0FFEEEE#64 wrapOneEnd.mem
  exact ⟨u', wrapOne_run, unwrapOne_inv _ _ _ _ wrapOneEnd_mem.1 wrapOneEnd_mem.2, rfl, rfl, rfl, h,
    rfl, rfl, (fun h => by cases h), rfl, rfl⟩

/-- For WrapRunsFromAcceptanceToResult, UnwrapRunsFromAcceptanceToResult and
ClearRunsFromAcceptanceToResult: n = 1, 2 and N_MAX (their Inv is `loaded_inv`). -/
theorem witness_whole_command_statements : ∀ n ∈ [1#6, 2#6, 32#6],
    (loaded n).phase = .idle ∧ (loaded n).schedule = [] ∧ (loaded n).coreLive = true ∧
    (loaded n).keylen ≠ 3#2 ∧ (loaded n).n ≠ 0#6 ∧ (loaded n).n.toNat ≤ (loaded n).nmax.toNat := by
  decide

end Sys2Proof.Tests
end

section
/-! PROOFS. The statements of 10_state.md: the invariant along every step and what it says of T and
REQ, host writes, the register map, reset values, the status flags, the buffer, the KEK. -/

namespace Sys2Proof.Machine

open Sys2Proof

/-! ### The invariant along every step -/

/-- A Controller step of the running command keeps the invariant: START, ISSUE or FINISH. -/
theorem State.Inv.running {s s' : State} (h : s.Inv) (h0 : s.phase ≠ .idle) (h1 : s.phase ≠ .wait)
    (hs : runningStep s = .next s') : s'.Inv := by
  rcases busy_phases h0 h1 with hp | hp | hp
  · exact h.start hp hs
  · have hk := runningStep_past_start (by simp [State.inRounds, hp]) hs
    rw [runningStep_issue hp hk] at hs
    cases hs
    exact h.issue hp
  · have hk := runningStep_past_start (by simp [State.inRounds, hp]) hs
    rw [runningStep_finish hp hk] at hs
    cases hs
    exact h.runningFinish

/-- Every turn keeps the invariant. -/
theorem State.Inv.takeTurn {e : Turn} {s s' : State} (h : s.Inv)
    (hs : takeTurn e s = .next s') : s'.Inv := by
  rcases takeTurn_cases e s with ⟨x, -, hx⟩ | ⟨-, h0, h1, hx⟩ | ⟨r, b, -, hp, -, -, hx⟩ |
    ⟨-, hx⟩ | ⟨hx, -⟩ <;> rw [hx] at hs
  · exact h.host x hs
  · exact h.running h0 h1 hs
  · obtain ⟨-, rfl⟩ := runningStep_response hp hs
    exact h.round hp b
  · cases hs
    exact .resetBlock h.nmax_ge
  · cases hs
    exact h

/-- Settles O34: a step takes one turn, at the state with the rest of the schedule, or changes
nothing. -/
theorem stepKeepsTheInvariant : Obligations.StepKeepsTheInvariant := by
  intro s s' h hs
  rcases step_cases s with ⟨e, l, hx, -⟩ | ⟨hx, -⟩ <;> rw [hx] at hs
  · exact (h.schedule l).takeTurn hs
  · cases hs
    exact h

/-- Settles O33: after reset the block is in IDLE with an empty buffer and no request. -/
theorem resetMeetsTheInvariant : Obligations.ResetMeetsTheInvariant := fun _ h =>
  .of_idle rfl h Memory.wf_nil (by simp [State.resetFor]) ⟨rfl, rfl, rfl, rfl, rfl, rfl⟩ rfl
    (fun hv => by cases hv) rfl

/-! ### What the invariant says of T and of REQ -/

/-- T is 0 before the rounds, and never passes 6·NL + 1 in them (10_state.md R61). -/
theorem State.Inv.t_range {s : State} (h : s.Inv) :
    (s.inRounds = false ∧ s.t = 0) ∨
    (s.nl.toNat ≤ s.nmax.toNat ∧ s.t.toNat ≤ lastRound s.nl + 1 ∧ (s.nl = 1#6 → s.t = 0)) := by
  by_cases hr : s.inRounds = true
  · obtain ⟨-, hl⟩ := h.rounds_legal hr
    have ht := h.round_range hr
    have hlast := lastRound_le s.nl
    refine .inr ⟨(lengthsLegal_iff.1 hl).2.2, ?_, h.one_round hr⟩
    unfold State.roundLegal at ht
    split_ifs at ht with h1 hf ho
    · simp [ht]
    · rw [ht, BitVec.toNat_ofNat, Nat.mod_eq_of_lt (by omega)]
    · simp [ht]
    · omega
  · refine .inl ⟨by simpa using hr, ?_⟩
    cases hp : s.phase with
    | idle => exact (h.idle_zero hp).2.1
    | start => exact (h.start_zero hp).2
    | issue | wait | finish => simp [State.inRounds, hp] at hr

/-- Settles O36: in the rounds NL ≤ N_MAX ≤ 63 bounds 6·NL + 1. -/
theorem roundCounterStaysInRange : Obligations.RoundCounterStaysInRange := by
  intro s h
  have hn := nmax_le s
  rcases h.t_range with ⟨-, ht⟩ | ⟨hl, ht, h1⟩
  · simp [ht]
  · unfold lastRound at ht
    exact ⟨by omega, by omega, fun hp => (h.idle_zero hp).2.1, h1⟩

/-- The direction of the running command's request (40_carousel.md R220). -/
theorem runningDir_eq_enc (s : State) : s.runningDir = .enc ↔ s.opl = 0x1#4 := by
  unfold State.runningDir
  split <;> simp_all

/-- Settles O37: in WAIT the request is `runningReq`, and elsewhere there is none. -/
theorem requestStandsExactlyInWait : Obligations.RequestStandsExactlyInWait := by
  intro s h
  have hiff : s.req ≠ none ↔ s.phase = .wait :=
    ⟨fun hr => by_contra fun hp => hr (h.no_req hp), fun hp => by simp [h.wait_req hp]⟩
  refine ⟨hiff, fun r hr => ?_⟩
  have hp : s.phase = .wait := hiff.1 (by simp [hr])
  obtain rfl : s.runningReq = r := Option.some.inj ((h.wait_req hp).symm.trans hr)
  obtain ⟨-, hl⟩ := h.rounds_legal (by simp [State.inRounds, hp])
  exact ⟨rfl, (lengthsLegal_iff.1 hl).1, rfl, runningDir_eq_enc s⟩

/-! ### Named writes -/

/-- A write reaches a named register, or gets an ERROR response in every state with this N_MAX. -/
theorem wr_error_or_named (addr : Offset) (width : Width) (v : Word) (nmax : BitVec 6) :
    (∀ s : State, s.nmax = nmax →
      hostStep (.wr addr width v) s = .next (answer none .error s)) ∨
    ∃ r, r.wellFormed nmax.toNat = true ∧ BusTxn.wr addr width v = wrTxn r v := by
  by_cases hp : performed addr width = true
  · cases hr : regAt nmax.toNat addr.toNat with
    | none =>
      refine .inl fun s hn => ?_
      subst hn
      simp [hostStep, busWrite, hp, State.regAt, hr]
    | some r =>
      obtain ⟨rfl, ha⟩ := (performed_iff _ _).1 hp
      obtain ⟨hw, ho⟩ := regOffset_of_regAt ha hr
      exact .inr ⟨r, hw, by simp [wrTxn, ho]⟩
  · exact .inl fun s _ => by simp [hostStep, busWrite, hp]

theorem busy_iff (s : State) : s.busy = true ↔ s.phase ≠ .idle := decide_eq_true_iff

/-- The registers whose writes are dropped while a command runs (20_memory.md R106). -/
def Reg.guarded : Reg → Bool
  | .hwcfg | .status | .round | .irqEnable | .irqStatus => false
  | .config | .cmd | .ivHi | .ivLo | .kek _ | .whi _ | .wlo _ => true

/-- A write to a guarded register is dropped while a command runs; every other one is performed. -/
theorem writeReg_eq (r : Reg) (v : Word) (s : State) : writeReg r v s =
    if Reg.guarded r && s.busy then .next (dropWrite s) else writeIdle r v s := by
  cases r <;> rfl

/-- CMD is guarded: its write is performed in IDLE only (40_carousel.md R200). -/
theorem idle_of_cmd_performed {r : Reg} {s : State} (hg : ¬(Reg.guarded r && s.busy) = true)
    (hr : r = .cmd) : s.phase = .idle := by
  subst hr
  simpa [Reg.guarded, busy_iff] using hg

/-- A step whose turn is a write of a named register. -/
theorem step_wr_named {s : State} (r : Reg) (v : Word) (h : r.wellFormed s.nmax.toNat = true) :
    step (s.givenTurn (.host (wrTxn r v))) = writeReg r v (answer none .okay s) :=
  hostStep_wr_named s v h

/-- In IDLE every write of a named register is performed. -/
theorem step_wr_idle {s : State} (r : Reg) (v : Word) (hp : s.phase = .idle)
    (h : r.wellFormed s.nmax.toNat = true) :
    step (s.givenTurn (.host (wrTxn r v))) = writeIdle r v (answer none .okay s) := by
  rw [step_wr_named r v h]
  simp [writeReg_eq, State.busy, hp]

/-- Settles O8: these writes are performed in every PHASE. -/
theorem interruptAndReadOnlyWritesInEveryPhase :
    Obligations.InterruptAndReadOnlyWritesInEveryPhase := by
  intro s v
  refine ⟨step_wr_named .irqEnable v rfl, step_wr_named .irqStatus v rfl, ?_⟩
  rintro r (rfl | rfl | rfl)
  all_goals exact step_wr_named _ v rfl

/-- Settles O9: in IDLE each of the three writes is performed. -/
theorem idleWriteSetsConfigAndIv : Obligations.IdleWriteSetsConfigAndIv := fun _ v hp =>
  ⟨step_wr_idle .config v hp rfl, step_wr_idle .ivHi v hp rfl, step_wr_idle .ivLo v hp rfl⟩

/-- Settles O10: the new KEK is `setKekWord k v` of the old one. -/
theorem idleWriteSetsOneKekWord : Obligations.IdleWriteSetsOneKekWord := by
  intro s k v hp
  refine ⟨setKekWord k v s.kek, step_wr_idle (.kek k) v hp rfl, kekWord_setKekWord k v s.kek, ?_⟩
  intro b hb
  rw [getLsbD_setKekWord, if_neg]
  unfold kekLow
  omega

/-- A word write to WHI_j sets the high half of the slot. -/
theorem Memory.slot_writeWord_hi (m : Memory) (j : Nat) (v : Word) :
    Memory.slot (Memory.writeWord m (slotOffset j) v) j = v ++ loWord (Memory.slot m j) := by
  unfold Memory.slot
  rw [readWord_writeWord, readWord_writeWord_of_ne _ _ _ _ (by omega), loWord_append]

/-- A word write to WLO_j sets the low half of the slot. -/
theorem Memory.slot_writeWord_lo (m : Memory) (j : Nat) (v : Word) :
    Memory.slot (Memory.writeWord m (slotOffset j + 4) v) j = hiWord (Memory.slot m j) ++ v := by
  unfold Memory.slot
  rw [readWord_writeWord, readWord_writeWord_of_ne _ _ _ _ (by omega), hiWord_append]

/-- Settles O11: the new buffer is one word write, at WHI_j's offset or at WLO_j's. -/
theorem idleWriteSetsOneBufferWord : Obligations.IdleWriteSetsOneBufferWord := by
  intro s j v hp hj
  have hw : decide (j ≤ s.nmax.toNat) = true := decide_eq_true hj
  exact ⟨⟨_, step_wr_idle (.whi j) v hp hw, Memory.slot_writeWord_hi _ _ _,
      fun x => Memory.readByte_writeWord_of_ne _ _ _ _⟩,
    ⟨_, step_wr_idle (.wlo j) v hp hw, Memory.slot_writeWord_lo _ _ _,
      fun x => Memory.readByte_writeWord_of_ne _ _ _ _⟩⟩

/-! ### The register map -/

/-- The register at an aligned offset is the one of the window that stands there (R33). -/
theorem regAt_eq_some_iff {nmax a : Nat} {r : Reg} (ha : a % 4 = 0) :
    regAt nmax a = some r ↔ r.wellFormed nmax = true ∧ regOffset r = a := by
  refine ⟨regOffset_of_regAt ha, ?_⟩
  rintro ⟨h, rfl⟩
  exact regAt_regOffset h

/-- Settles O3: the table of R33 is `regOffset`, over the registers of the window. -/
theorem registerMapIsTheTable : Obligations.RegisterMapIsTheTable := by
  intro nmax a r ha
  rw [regAt_eq_some_iff ha]
  cases r with
  | whi j | wlo j => simp only [Reg.wellFormed, regOffset, slotOffset, decide_eq_true_eq]; omega
  | _ => simp [Reg.wellFormed, regOffset, eq_comm]

/-! ### Reset -/

/-- Settles O31: the words, W and irq are derived from fields that are 0; the rest is read off
`State.resetFor`. -/
theorem resetValues : Obligations.ResetValues := by
  refine ⟨rfl, ?_⟩
  rintro nmax s rfl
  have hstatus : statusWord (State.resetFor nmax) = 0 := by
    simp [statusWord, State.busy, State.resetFor, ResultCode.bits]
  have hconfig : configWord (State.resetFor nmax) = 0 := by simp [configWord, State.resetFor]
  have hround : roundWord (State.resetFor nmax) = 0 := by simp [roundWord, State.resetFor]
  have hw : ∀ j, (State.resetFor nmax).w j = 0 := fun j => by
    simp [State.w, State.resetFor, Memory.slot, Memory.readWord]
  have hirq : (State.resetFor nmax).irq = false := by simp [State.irq, State.resetFor]
  exact ⟨rfl, hconfig, hstatus, rfl, rfl, rfl, rfl, hround, rfl, rfl, rfl, hw, rfl, rfl, rfl, rfl,
    rfl, rfl, rfl, hirq⟩

/-! ### The interrupt -/

/-- Two masks of the three events meet in an event. -/
theorem and_ne_zero_iff (p q : BitVec 3) :
    p &&& q ≠ 0#3 ↔ ∃ k < 3, p.getLsbD k = true ∧ q.getLsbD k = true := by
  revert p q
  decide

theorem irq_iff (s : State) :
    s.irq = true ↔ ∃ k < 3, s.irqStatus.getLsbD k = true ∧ s.irqEnable.getLsbD k = true := by
  unfold State.irq
  rw [decide_eq_true_eq]
  exact and_ne_zero_iff _ _

/-- Settles O13: after the write IRQ_ENABLE holds the word's three low bits. -/
theorem irqFollowsPendingAndEnable : Obligations.IrqFollowsPendingAndEnable := by
  refine ⟨irq_iff, fun s v => ⟨_, step_wr_named .irqEnable v rfl, (irq_iff _).trans ?_⟩⟩
  refine exists_congr fun k => and_congr_right fun hk => ?_
  simp [hk]

/-! ### The status flags -/

theorem getLsbD_completionIrq (c : ResultCode) (st : BitVec 3) (k : Nat) :
    (completionIrq c st).getLsbD k =
      (st.getLsbD k || decide (k = 0) || (decide (k = 1) && c.isError)) := by
  unfold completionIrq
  rw [BitVec.getLsbD_or]
  rcases k with _ | _ | _ | k <;> cases c.isError <;> simp

theorem getLsbD_dropIrq (st : BitVec 3) (k : Nat) :
    (dropIrq st).getLsbD k = (st.getLsbD k || decide (k = 2)) := by
  unfold dropIrq
  rw [BitVec.getLsbD_or]
  rcases k with _ | _ | _ | k <;> simp

theorem getLsbD_acknowledgeIrq (v : Word) (st : BitVec 3) (k : Nat) :
    (acknowledgeIrq v st).getLsbD k = (st.getLsbD k && !v.getLsbD k) := by
  by_cases hk : k < 3
  · simp [acknowledgeIrq, hk]
  · simp [BitVec.getLsbD_of_ge _ k (Nat.not_lt.1 hk)]

/-- What a turn other than reset does to CODE, VALID and the events (10_state.md R71). -/
inductive FlagEffect (s : State) (e : Turn) (s' : State) : Prop
  /-- It leaves them alone. -/
  | kept (hcode : s'.code = s.code) (hvalid : s'.valid = s.valid)
      (hirq : s'.irqStatus = s.irqStatus)
  /-- It accepts a command and clears VALID (40_carousel.md R201). -/
  | accepted (hidle : s.phase = .idle) (hstart : s'.phase = .start) (hcode : s'.code = s.code)
      (hvalid : s'.valid = false) (hirq : s'.irqStatus = s.irqStatus)
  /-- The host acknowledges events (R39). -/
  | acknowledged (v : Word) (he : e = .host (wrTxn .irqStatus v)) (hcode : s'.code = s.code)
      (hvalid : s'.valid = s.valid) (hirq : s'.irqStatus = acknowledgeIrq v s.irqStatus)
  /-- A host write is dropped (20_memory.md R106). -/
  | dropped (x : BusTxn) (he : e = .host x) (hbusy : s.phase ≠ .idle) (hcode : s'.code = s.code)
      (hvalid : s'.valid = s.valid) (hirq : s'.irqStatus = dropIrq s.irqStatus)
  /-- It ends the running command (40_carousel.md R230). -/
  | completed (hbusy : s.phase ≠ .idle) (hidle : s'.phase = .idle)
      (hirq : s'.irqStatus = completionIrq s'.code s.irqStatus)

/-- A performed write, with the response already given. -/
theorem writeIdle_flagEffect {s s' : State} {r : Reg} {v : Word} {d : Option Word} {c : Resp}
    (hp : r = .cmd → s.phase = .idle) (hs : writeIdle r v (answer d c s) = .next s') :
    FlagEffect s (.host (wrTxn r v)) s' := by
  cases r
  case cmd =>
    cases (commandWrite_idle v (s := answer d c s) (hp rfl)).symm.trans hs
    exact .accepted (hp rfl) rfl rfl rfl rfl
  case irqStatus =>
    cases hs
    exact .acknowledged v rfl rfl rfl rfl
  all_goals
    cases hs
    exact .kept rfl rfl rfl

theorem hostStep_flagEffect {x : BusTxn} {s s' : State} (hs : hostStep x s = .next s') :
    FlagEffect s (.host x) s' := by
  cases x with
  | rd addr width =>
    obtain ⟨r, hr⟩ := hostStep_rd_frame addr width s
    cases hr.symm.trans hs
    exact .kept rfl rfl rfl
  | wr addr width v =>
    rcases wr_error_or_named addr width v s.nmax with hr | ⟨r, hw, hx⟩
    · cases (hr s rfl).symm.trans hs
      exact .kept rfl rfl rfl
    · rw [hx] at hs ⊢
      rw [hostStep_wr_named s v hw, writeReg_eq] at hs
      split at hs
      next hg =>
        cases hs
        exact .dropped _ rfl ((busy_iff s).1 (Bool.and_eq_true_iff.1 hg).2) rfl rfl rfl
      next hg => exact writeIdle_flagEffect (idle_of_cmd_performed hg) hs

/-- The one place the flags' rule is read off the turns. -/
theorem takeTurn_flagEffect {e : Turn} {s s' : State} (he : e ≠ .reset)
    (hs : takeTurn e s = .next s') : FlagEffect s e s' := by
  rcases takeTurn_cases e s with ⟨x, rfl, hx⟩ | ⟨-, h0, h1, hx⟩ | ⟨r, b, -, hp, -, -, hx⟩ |
    ⟨rfl, -⟩ | ⟨hx, -⟩
  · exact hostStep_flagEffect hs
  · rw [hx] at hs
    rcases runningStep_cases h0 h1 hs with ⟨c, v, m, rfl, -⟩ | ⟨-, -, -, rfl⟩ | ⟨-, -, rfl⟩
    · exact .completed h0 rfl rfl
    · rw [runningInit_eq]
      exact .kept rfl rfl rfl
    · exact .kept rfl rfl rfl
  · rw [hx] at hs
    obtain ⟨-, rfl⟩ := runningStep_response hp hs
    exact .kept (by simp) (by simp) (by simp)
  · exact absurd rfl he
  · rw [hx] at hs
    cases hs
    exact .kept rfl rfl rfl

/-- Settles O41: each effect on the flags names its step. -/
theorem flagsChangeOnlyAtTheirSteps : Obligations.FlagsChangeOnlyAtTheirSteps := by
  intro s s' e he hs
  rw [step_givenTurn] at hs
  simp only [State.irqDone, State.irqErr, State.irqDrop]
  cases takeTurn_flagEffect he hs with
  | kept hcode hvalid hirq => simp +contextual [hcode, hvalid, hirq]
  | accepted hidle hstart hcode hvalid hirq => simp +contextual [hidle, hstart, hcode, hvalid, hirq]
  | acknowledged v _ hcode hvalid hirq =>
    simp only [hirq, getLsbD_acknowledgeIrq]
    simp +contextual [hcode, hvalid]
  | dropped x hx hbusy hcode hvalid hirq =>
    simp only [hirq, getLsbD_dropIrq]
    simp +contextual [hx, hbusy, hcode, hvalid]
  | completed hbusy hidle hirq =>
    simp only [hirq, getLsbD_completionIrq]
    refine ⟨fun _ => ⟨hbusy, hidle⟩, fun _ => .inr ⟨hbusy, hidle⟩, fun _ _ => ⟨hbusy, hidle⟩,
      fun h1 h0 => ⟨hbusy, hidle, ?_⟩, fun h1 h0 => ?_⟩ <;> rw [h0] at h1
    · simpa using h1
    · simp at h1

/-- Settles O42: of the effects on the flags, only an acknowledgement clears an event. -/
theorem eventsAreClearedOnlyByAcknowledgement :
    Obligations.EventsAreClearedOnlyByAcknowledgement := by
  intro s s' e k hs hset hclear
  rw [step_givenTurn] at hs
  by_cases he : e = .reset
  · exact .inl he
  cases takeTurn_flagEffect he hs with
  | kept _ _ hirq | accepted _ _ _ _ hirq => simp [hirq, hset] at hclear
  | acknowledged v hv _ _ hirq =>
    exact .inr ⟨v, hv, by simpa [hirq, hset, getLsbD_acknowledgeIrq] using hclear⟩
  | dropped _ _ _ _ _ hirq => simp [hirq, hset, getLsbD_dropIrq] at hclear
  | completed _ _ hirq => simp [hirq, hset, getLsbD_completionIrq] at hclear

/-! ### The data buffer while a command runs -/

/-- Settles O44: a round writes a slot from 1 to NL, FINISH slot 0, and only a completion scrubs. -/
theorem slotsAboveNAreUntouched : Obligations.SlotsAboveNAreUntouched := by
  intro s s' e h hp he hs
  rcases takeTurn_cases e s with ⟨x, rfl, hx⟩ | ⟨-, h0, h1, hx⟩ | ⟨r, b, -, hw, -, -, hx⟩ |
    ⟨rfl, -⟩ | ⟨hx, -⟩
  · obtain ⟨en, st, r, hr, -⟩ := hostStep_busy x hp
    cases hr.symm.trans hs
    exact .inl fun _ _ _ => rfl
  · rcases runningStep_cases h0 h1 (hx.symm.trans hs) with
      ⟨c, v, m, rfl, -, -, rfl | ⟨-, -, rfl⟩ | rfl⟩ | ⟨-, -, -, rfl⟩ | ⟨-, -, rfl⟩
    · exact .inl fun _ _ _ => rfl
    · exact .inl fun j hj _ => Memory.slot_setSlot_of_ne _ _ _ _ (by omega)
    · exact .inr ⟨rfl, fun j hj => Memory.slot_scrub _ _ _ hj⟩
    · rw [runningInit_eq]
      exact .inl fun _ _ _ => rfl
    · exact .inl fun _ _ _ => rfl
  · obtain ⟨-, rfl⟩ := runningStep_response hw (hx.symm.trans hs)
    obtain ⟨-, hl⟩ := h.rounds_legal (by simp [State.inRounds, hw])
    have hi : State.roundIndex { s with req := none, aesRsp := none } ≤ s.nl.toNat :=
      (roundIndex_bounds (lengthsLegal_iff.1 hl).2.1).2
    refine .inl fun j hj _ => ?_
    rw [runningRound_w, if_neg (by omega)]
    rfl
  · exact absurd rfl he
  · cases hx.symm.trans hs
    exact .inl fun _ _ _ => rfl

/-! ### The KEK and the host -/

/-- Two answers that a host which sees no key cannot tell apart. -/
def sameButKey (o p : Outcome) : Prop :=
  ∃ s t : State, o = .next s ∧ p = .next t ∧ s.hideKey = t.hideKey

@[simp] theorem hideKey_comp_hideKey : AesReq.hideKey ∘ AesReq.hideKey = AesReq.hideKey := rfl

theorem readReg_hideKey (s : State) (r : Reg) : readReg s.hideKey r = readReg s r := by
  cases r <;> rfl

theorem busRead_hideKey (addr : Offset) (width : Width) (s : State) :
    busRead addr width s.hideKey = (busRead addr width s).hideKey := by
  have hreg : s.hideKey.regAt addr = s.regAt addr := rfl
  unfold busRead
  rw [hreg]
  split
  · cases s.regAt addr with
    | none => rfl
    | some r => simp only [readReg_hideKey]; rfl
  · rfl

/-- A performed write of a KEK word is hidden with the KEK, and no other write looks at a key. -/
theorem writeIdle_hideKey (r : Reg) (v : Word) {s : State} (hp : r = .cmd → s.phase = .idle) :
    sameButKey (writeIdle r v s) (writeIdle r v s.hideKey) := by
  cases r
  case cmd =>
    exact ⟨_, _, commandWrite_idle v (hp rfl), commandWrite_idle v (hp rfl),
      by simp [State.hideKey, accept, effectiveIv]⟩
  all_goals exact ⟨_, _, rfl, rfl, by simp [State.hideKey, acknowledge]⟩

theorem writeReg_hideKey (r : Reg) (v : Word) (s : State) :
    sameButKey (writeReg r v s) (writeReg r v s.hideKey) := by
  have hb : s.hideKey.busy = s.busy := rfl
  rw [writeReg_eq, writeReg_eq, hb]
  split
  next hg => exact ⟨_, _, rfl, rfl, by simp [State.hideKey, dropWrite]⟩
  next hg => exact writeIdle_hideKey r v (idle_of_cmd_performed hg)

/-- No transaction reads the KEK or takes a way that depends on it (10_state.md R42). -/
theorem hostStep_hideKey (x : BusTxn) (s : State) :
    sameButKey (hostStep x s) (hostStep x s.hideKey) := by
  cases x with
  | rd addr width => exact ⟨_, _, rfl, rfl, by rw [busRead_hideKey]; simp [State.hideKey]⟩
  | wr addr width v =>
    rcases wr_error_or_named addr width v s.nmax with hr | ⟨r, hw, hx⟩
    · exact ⟨_, _, hr s rfl, hr s.hideKey rfl, by simp [State.hideKey, answer]⟩
    · rw [hx, hostStep_wr_named s v hw, hostStep_wr_named s.hideKey v hw]
      exact writeReg_hideKey r v (answer none .okay s)

/-- Settles O40: both states are, to the host, the one with no key at all. -/
theorem kekIsInvisibleToTheHost : Obligations.KekIsInvisibleToTheHost := by
  intro s t x h
  obtain ⟨s', u, hs, hu, hsu⟩ := hostStep_hideKey x s
  obtain ⟨t', u', ht, hu', htu⟩ := hostStep_hideKey x t
  rw [h, hu'] at hu
  cases hu
  have hst : s'.hideKey = t'.hideKey := hsu.trans htu.symm
  exact ⟨s', t', hs, ht, (congrArg State.busRsp hst :), hst⟩

end Sys2Proof.Machine
end

section
/-! PROOFS. The statements of 20_memory.md: accesses that are not performed, reads of the registers,
dropped and repeated writes, a running command's inputs, turns without an enabled step, a silent core,
the AES functions. -/

namespace Sys2Proof.Machine

open Sys2Proof

/-! ### Accesses that get ERROR -/

/-- An access that is not performed, or that no register answers, gets ERROR (R103, R107). -/
theorem hostStep_error {s : State} {addr : Offset} {width : Width}
    (h : performed addr width = false ∨ s.regAt addr = none) :
    hostStep (.rd addr width) s = .next (answer (some 0) .error s) ∧
      ∀ v, hostStep (.wr addr width v) s = .next (answer none .error s) := by
  cases hp : performed addr width with
  | false => simp [hostStep, busRead, busWrite, hp]
  | true => simp [hostStep, busRead, busWrite, hp, h.resolve_left (by simp [hp])]

/-- Settles O4: a narrow or misaligned access is not performed. -/
theorem unperformedAccessDoesNothing : Obligations.UnperformedAccessDoesNothing := by
  intro s addr width v h
  have hp : performed addr width = false := by
    rw [Bool.eq_false_iff, ne_eq, performed_iff]
    tauto
  obtain ⟨hrd, hwr⟩ := hostStep_error (s := s) (.inl hp)
  exact ⟨hrd, hwr v⟩

/-- No register answers at an offset where none of the window stands. -/
theorem State.regAt_eq_none {s : State} {addr : Offset} (ha : addr.toNat % 4 = 0)
    (h : ∀ r : Reg, r.wellFormed s.nmax.toNat = true → regOffset r ≠ addr.toNat) :
    s.regAt addr = none := by
  rw [Option.eq_none_iff_forall_ne_some]
  intro r hr
  obtain ⟨hw, ho⟩ := regOffset_of_regAt ha hr
  exact h r hw ho

/-- Settles O5: no register stands at a reserved offset. -/
theorem reservedOffsetErrors : Obligations.ReservedOffsetErrors := by
  intro s addr v ha h
  obtain ⟨hrd, hwr⟩ := hostStep_error (width := .w32) (.inr (State.regAt_eq_none ha h))
  exact ⟨hrd, hwr v⟩

/-! ### The words of the registers -/

/-- CONFIG's fields, and its reserved bits 0 (10_state.md R35). -/
theorem configWord_fields (s : State) :
    (configWord s).extractLsb' 0 2 = s.keylen ∧ (configWord s).extractLsb' 8 6 = s.n ∧
      configWord s &&& 0xFFFFC0FC#32 = 0 := by
  unfold configWord
  generalize s.n = n, s.keylen = kl
  revert n kl
  decide

/-- STATUS's fields, and its reserved bits 0 (30_encoding.md R155). -/
theorem statusWord_fields (s : State) :
    (statusWord s).getLsbD 0 = decide (s.phase ≠ .idle) ∧ (statusWord s).getLsbD 1 = s.valid ∧
      (statusWord s).extractLsb' 4 4 = s.code.bits ∧ statusWord s &&& 0xFFFFFF0C#32 = 0 := by
  unfold statusWord State.busy
  cases s.code <;> cases s.valid <;> cases decide (s.phase ≠ .idle) <;> decide

theorem bufferRead_whi (s : State) (j : Nat) :
    bufferRead s (slotOffset j) = if s.phase = .idle then hiWord (s.w j) else 0 := by
  simp [bufferRead, busy_iff, State.w, Memory.slot]

theorem bufferRead_wlo (s : State) (j : Nat) :
    bufferRead s (slotOffset j + 4) = if s.phase = .idle then loWord (s.w j) else 0 := by
  simp [bufferRead, busy_iff, State.w, Memory.slot]

/-- Settles O6: a read of a named register answers `readReg`. -/
theorem readReturnsTheRegister : Obligations.ReadReturnsTheRegister := by
  intro s r hr
  refine ⟨readReg s r, hostStep_rd_named s hr, ?_⟩
  cases r with
  | config => exact configWord_fields s
  | status => exact statusWord_fields s
  | whi j => exact bufferRead_whi s j
  | wlo j => exact bufferRead_wlo s j
  | _ => rfl

/-! ### Dropped writes -/

/-- The guarded registers are all but the read-only and the interrupt registers (R106, R108). -/
theorem Reg.guarded_iff (r : Reg) : Reg.guarded r = true ↔
    r ≠ .hwcfg ∧ r ≠ .status ∧ r ≠ .round ∧ r ≠ .irqEnable ∧ r ≠ .irqStatus := by
  cases r <;> simp [Reg.guarded]

/-- A guarded register's write while a command runs. -/
theorem writeReg_busy {r : Reg} {s : State} (hg : Reg.guarded r = true) (hp : s.phase ≠ .idle)
    (v : Word) : writeReg r v s = .next (dropWrite s) := by
  rw [writeReg_eq, hg, (busy_iff s).2 hp]
  rfl

/-- Settles O7: the write is to a guarded register. -/
theorem busyWriteIsDropped : Obligations.BusyWriteIsDropped := by
  intro s r v hp hw h1 h2 h3 h4 h5
  rw [step_wr_named r v hw]
  exact writeReg_busy (s := answer none .okay s) ((Reg.guarded_iff r).2 ⟨h1, h2, h3, h4, h5⟩) hp v

/-! ### Repeated writes -/

theorem dropWrite_dropWrite (s : State) : dropWrite (dropWrite s) = dropWrite s := by
  simp [dropWrite, dropIrq, BitVec.or_assoc]

theorem acknowledgeIrq_acknowledgeIrq (v : Word) (st : BitVec 3) :
    acknowledgeIrq v (acknowledgeIrq v st) = acknowledgeIrq v st := by
  simp [acknowledgeIrq, BitVec.and_assoc]

theorem setKekWord_setKekWord (k : Fin 8) (v : Word) (kek : Key) :
    setKekWord k v (setKekWord k v kek) = setKekWord k v kek := by
  apply BitVec.eq_of_getLsbD_eq
  intro b hb
  simp only [getLsbD_setKekWord]
  split <;> rfl

/-- A buffer in canonical form does not change when a word is written again. -/
theorem Memory.writeWord_writeWord {m : Memory} (h : Memory.wf m = true) (x : Nat) (v : Word) :
    Memory.writeWord (Memory.writeWord m x v) x v = Memory.writeWord m x v := by
  have hw := Memory.wf_writeWord m x v h
  refine Memory.ext (Memory.wf_writeWord _ _ _ hw) hw fun y => ?_
  simp only [Memory.readByte_writeWord]
  split_ifs <;> rfl

/-- A performed write of a register other than CMD: it moves no command, it keeps N_MAX and the
response, and the same write again changes nothing (R109). -/
theorem writeIdle_again {r : Reg} (hr : r ≠ .cmd) (v : Word) {s : State}
    (hm : Memory.wf s.mem = true) :
    ∃ s', writeIdle r v s = .next s' ∧ s'.phase = s.phase ∧ s'.nmax = s.nmax ∧
      s'.busRsp = s.busRsp ∧ writeIdle r v s' = .next s' := by
  cases r with
  | cmd => exact absurd rfl hr
  | ivHi => exact ⟨_, rfl, rfl, rfl, rfl, by simp [writeIdle, setHiWord]⟩
  | ivLo => exact ⟨_, rfl, rfl, rfl, rfl, by simp [writeIdle, setLoWord]⟩
  | kek k => exact ⟨_, rfl, rfl, rfl, rfl, by simp [writeIdle, setKekWord_setKekWord]⟩
  | whi j => exact ⟨_, rfl, rfl, rfl, rfl, by simp [writeIdle, Memory.writeWord_writeWord hm]⟩
  | wlo j => exact ⟨_, rfl, rfl, rfl, rfl, by simp [writeIdle, Memory.writeWord_writeWord hm]⟩
  | irqStatus =>
    exact ⟨_, rfl, rfl, rfl, rfl, by
      simp [writeIdle, acknowledge, acknowledgeIrq_acknowledgeIrq]⟩
  | config | irqEnable | hwcfg | status | round => exact ⟨_, rfl, rfl, rfl, rfl, rfl⟩

/-- The same for a write that may be dropped. -/
theorem writeReg_again {r : Reg} (hr : r ≠ .cmd) (v : Word) {s : State}
    (hm : Memory.wf s.mem = true) :
    ∃ s', writeReg r v s = .next s' ∧ s'.nmax = s.nmax ∧ s'.busRsp = s.busRsp ∧
      writeReg r v s' = .next s' := by
  by_cases hg : (Reg.guarded r && s.busy) = true
  · have hb : (dropWrite s).busy = s.busy := rfl
    exact ⟨dropWrite s, by rw [writeReg_eq, if_pos hg], rfl, rfl, by
      rw [writeReg_eq, hb, if_pos hg, dropWrite_dropWrite]⟩
  · obtain ⟨s', hs, hp, hn, hrsp, hagain⟩ := writeIdle_again hr v hm
    have hb : s'.busy = s.busy := by simp only [State.busy, hp]
    exact ⟨s', by rw [writeReg_eq, if_neg hg, hs], hn, hrsp, by
      rw [writeReg_eq, hb, if_neg hg, hagain]⟩

/-- Settles O12: the second write meets the same PHASE, and the response is already that of a write. -/
theorem writesAreIdempotent : Obligations.WritesAreIdempotent := by
  intro s s' r v h hr hw hs
  rw [step_wr_named r v hw] at hs
  obtain ⟨t, ht, hn, hrsp, hagain⟩ := writeReg_again hr v (s := answer none .okay s) h.mem_wf
  obtain rfl : t = s' := Host.Outcome.next.inj (ht.symm.trans hs)
  have hans : answer none .okay t = t := by
    rw [answer_busRsp] at hrsp
    rw [answer, ← hrsp]
  rw [step_wr_named r v (by rw [hn]; exact hw), hans, hagain]

/-! ### A running command's inputs -/

/-- The inputs of a running command: what acceptance latched, and the KEK, IV and CONFIG (R113). -/
def sameInputs (s s' : State) : Prop :=
  s'.opl = s.opl ∧ s'.nl = s.nl ∧ s'.kll = s.kll ∧ s'.ive = s.ive ∧ s'.kek = s.kek ∧
    s'.iv = s.iv ∧ s'.keylen = s.keylen ∧ s'.n = s.n

theorem sameInputs_refl (s : State) : sameInputs s s :=
  ⟨rfl, rfl, rfl, rfl, rfl, rfl, rfl, rfl⟩

/-- A turn other than reset ends a running command or leaves its inputs alone. -/
theorem takeTurn_inputs {s s' : State} {e : Turn} (hp : s.phase ≠ .idle) (he : e ≠ .reset)
    (hs : takeTurn e s = .next s') : s'.phase = .idle ∨ sameInputs s s' := by
  rcases takeTurn_cases e s with ⟨x, rfl, hx⟩ | ⟨-, h0, h1, hx⟩ | ⟨r, b, -, hw, -, -, hx⟩ |
    ⟨rfl, -⟩ | ⟨hx, -⟩
  · obtain ⟨en, st, r, hr, -⟩ := hostStep_busy x hp
    cases hr.symm.trans hs
    exact .inr (sameInputs_refl s)
  · rcases runningStep_cases h0 h1 (hx.symm.trans hs) with
      ⟨c, v, m, rfl, -⟩ | ⟨-, -, -, rfl⟩ | ⟨-, -, rfl⟩
    · exact .inl rfl
    · rw [runningInit_eq]
      exact .inr (sameInputs_refl s)
    · exact .inr (sameInputs_refl s)
  · obtain ⟨-, rfl⟩ := runningStep_response hw (hx.symm.trans hs)
    exact .inr (by simp [sameInputs])
  · exact absurd rfl he
  · cases hx.symm.trans hs
    exact .inr (sameInputs_refl s)

/-- Settles O38: a transaction while a command runs changes the interrupt registers and the response
only. -/
theorem runningCommandsInputsAreFrozen : Obligations.RunningCommandsInputsAreFrozen := by
  intro s s' e hp he hs
  rw [step_givenTurn] at hs
  refine ⟨(takeTurn_inputs hp he hs).resolve_left, ?_⟩
  rintro x rfl
  obtain ⟨en, st, r, hr, -⟩ := hostStep_busy x hp
  cases hr.symm.trans hs
  exact ⟨rfl, rfl, rfl, rfl, rfl, rfl, rfl⟩

/-! ### Turns without an enabled step -/

/-- Settles O30: in each case the agent has no enabled step. -/
theorem turnsWithoutAnEnabledStepChangeNothing :
    Obligations.TurnsWithoutAnEnabledStepChangeNothing := by
  refine ⟨fun s B h => ⟨presentResponse_none B (.inr h), aesCoreStep_none (.inr h)⟩,
    fun s h => controllerStep_none h, fun s h hp => ?_⟩
  simp [step_nil h, ownTurn, hp]

/-! ### A silent core -/

/-- In WAIT, with a core that is not live and only host and Controller turns to come (R125). -/
def State.silentWait (s : State) : Prop :=
  s.phase = .wait ∧ s.coreLive = false ∧
    ∀ e ∈ s.schedule, (∃ x, e = .host x) ∨ e = .controller

/-- A host or Controller turn in WAIT keeps PHASE and the request. -/
theorem takeTurn_wait {s : State} {e : Turn} (hp : s.phase = .wait)
    (he : (∃ x, e = .host x) ∨ e = .controller) :
    ∃ t, takeTurn e s = .next t ∧ t.phase = .wait ∧ t.req = s.req := by
  rcases he with ⟨x, rfl⟩ | rfl
  · obtain ⟨en, st, r, hr, -⟩ := hostStep_busy x (s := s) (by simp [hp])
    exact ⟨_, hr, hp, rfl⟩
  · exact ⟨s, controllerStep_none (.inr hp), hp, rfl⟩

/-- A step of a block whose core is silent. -/
theorem State.silentWait.step {s : State} (h : s.silentWait) :
    ∃ t, step s = .next t ∧ t.silentWait ∧ t.req = s.req := by
  obtain ⟨hp, hc, hl⟩ := h
  cases hsch : s.schedule with
  | nil => exact ⟨s, by simp [step_nil hsch, ownTurn, hp, hc], ⟨hp, hc, hl⟩, rfl⟩
  | cons e l =>
    rw [hsch, List.forall_mem_cons] at hl
    obtain ⟨t, ht, hpt, hrt⟩ := takeTurn_wait (s := { s with schedule := l }) hp hl.1
    obtain ⟨hst, hct⟩ := takeTurn_schedule ht
    exact ⟨t, (step_cons hsch).trans ht, ⟨hpt, hct.trans hc, by rw [hst]; exact hl.2⟩, hrt⟩

/-- A silent core's block stays in WAIT with its request, for any number of steps. -/
theorem State.silentWait.run (k : Nat) : ∀ {s : State}, s.silentWait →
    ∃ s', Host.Core.run Sys2Proof.core k s = .next s' ∧ s'.silentWait ∧ s'.req = s.req := by
  induction k with
  | zero => exact fun {s} h => ⟨s, rfl, h, rfl⟩
  | succ k ih =>
    intro s h
    obtain ⟨t, ht, hwt, hrt⟩ := h.step
    obtain ⟨s', hs, hw, hr⟩ := ih hwt
    exact ⟨s', (run_succ k ht).trans hs, hw, hr.trans hrt⟩

/-- Settles O51: induction over the steps; BUSY is derived from PHASE. -/
theorem silentCoreHangsTheCommand : Obligations.SilentCoreHangsTheCommand := by
  intro s hp hc hl k
  obtain ⟨s', hs, ⟨hp', -, -⟩, hr⟩ := State.silentWait.run k ⟨hp, hc, hl⟩
  exact ⟨s', hs, hp', (busy_iff s').2 (by rw [hp']; decide), hr⟩

/-! ### The AES functions -/

/-- Keys that agree on the used bytes have the same used key (R121). -/
theorem usedKey_congr {kl : BitVec 2} (h : kl ≠ 3#2) {k₁ k₂ : Key}
    (hk : ∀ b, 256 - 8 * keyBytes kl ≤ b → k₁.getLsbD b = k₂.getLsbD b) :
    usedKey kl k₁ = usedKey kl k₂ := by
  apply BitVec.eq_of_getLsbD_eq
  intro b _
  rw [getLsbD_usedKey h, getLsbD_usedKey h]
  by_cases hb : 256 - 8 * keyBytes kl ≤ b
  · rw [hk b hb]
  · simp [hb]

/-- Settles O46: one permutation and its inverse, under the used key. -/
theorem aesCoreInvertsAndUsesTheUsedBytes : Obligations.AesCoreInvertsAndUsesTheUsedBytes := by
  refine ⟨fun kl key x h => ⟨aesDec_aesEnc h key x, aesEnc_aesDec h key x⟩, ?_⟩
  intro kl k₁ k₂ x h hk
  obtain ⟨henc, hdec⟩ := aes_usedKey h (usedKey_congr h hk)
  exact ⟨congrFun henc x, congrFun hdec x⟩

end Sys2Proof.Machine
end

section
/-! PROOFS. The statements of 30_encoding.md: CMD words and commands, script lines, the LDKEK line,
the default IV in the IV register. -/

namespace Sys2Proof.Machine

open Sys2Proof

/-! ### CMD words -/

/-- The opcode map gives a command exactly to its own opcode and IVSEL (R151). -/
theorem decodeOp_eq_ok_iff {op : BitVec 4} {b : Bool} {i : Instr} :
    decodeOp op b = .ok i ↔ i.opcode = op ∧ i.ivsel = b := by
  refine ⟨opcode_of_decodeOp, ?_⟩
  rintro ⟨hop, hb⟩
  obtain ⟨j, hj, hjop, hjb⟩ := decodeOp_opcode hop b
  rw [hj, instr_ext (hjop.trans hop.symm) (hjb.trans hb.symm)]

/-- The opcode map refuses exactly the opcodes outside it (R160). -/
theorem decodeOp_eq_error_iff {op : BitVec 4} {b : Bool} :
    decodeOp op b = .error (.illegalOpcode op) ↔ legalOp op = false :=
  ⟨fun h => (decodeOp_error h).2, fun h => decodeOp_illegal h b⟩

theorem legalOp_eq_false_iff (op : BitVec 4) : legalOp op = false ↔ op = 0#4 ∨ 5 ≤ op.toNat := by
  revert op
  decide

/-- A CMD word by its two fields, the ignored bits 0 (R150, R153). -/
def cmdWord (op : BitVec 4) (ivsel : Bool) : Word :=
  (0#23 ++ BitVec.ofBool ivsel ++ 0#4 ++ op : BitVec 32)

theorem encode_eq_cmdWord (i : Instr) : encode i = cmdWord i.opcode i.ivsel := rfl

@[simp] theorem cmdOp_cmdWord (op : BitVec 4) (b : Bool) : cmdOp (cmdWord op b) = op := by
  revert op b
  decide

@[simp] theorem cmdIvsel_cmdWord (op : BitVec 4) (b : Bool) : cmdIvsel (cmdWord op b) = b := by
  revert op b
  decide

theorem cmdWord_inj {op₁ op₂ : BitVec 4} {b₁ b₂ : Bool} :
    cmdWord op₁ b₁ = cmdWord op₂ b₂ ↔ op₁ = op₂ ∧ b₁ = b₂ := by
  refine ⟨fun h => ⟨?_, ?_⟩, ?_⟩
  · simpa using congrArg cmdOp h
  · simpa using congrArg cmdIvsel h
  · rintro ⟨rfl, rfl⟩
    rfl

/-- The mask 0x10F keeps OP and IVSEL and clears the ignored bits (R153). -/
theorem and_mask_eq_cmdWord (w : Word) : w &&& 0x0000010F#32 = cmdWord (cmdOp w) (cmdIvsel w) := by
  apply BitVec.eq_of_getLsbD_eq
  intro k hk
  simp only [cmdWord, cmdOp, cmdIvsel, BitVec.getLsbD_and, BitVec.getLsbD_append,
    BitVec.getLsbD_ofBool, BitVec.getLsbD_extractLsb', BitVec.getLsbD_zero]
  interval_cases k <;> simp

/-- Settles O2: a word and a command have the same two fields, or OP is outside the opcode map. -/
theorem decodeIgnoresAllButOpAndIvsel : Obligations.DecodeIgnoresAllButOpAndIvsel := by
  refine ⟨fun w i => ?_, fun w => ?_⟩
  · rw [encode_eq_cmdWord, and_mask_eq_cmdWord, cmdWord_inj]
    exact decodeOp_eq_ok_iff
  · rw [← legalOp_eq_false_iff]
    exact decodeOp_eq_error_iff

/-- Settles O1: each word is a closed instance of `decode`. -/
theorem decodeOfWrittenWords : Obligations.DecodeOfWrittenWords := by
  unfold Obligations.DecodeOfWrittenWords
  decide

/-! ### Script lines -/

/-- Settles O14: each line is a closed instance of `ScriptLine.expand`. -/
theorem scriptLinesExpandAsListed : Obligations.ScriptLinesExpandAsListed := by
  unfold Obligations.ScriptLinesExpandAsListed
  decide

/-! ### LDKEK: the bus writes -/

/-- The KEK after writes of the words to KEKk and the registers after it. -/
def loadKek : Nat → List Word → Key → Key
  | _, [], kek => kek
  | k, v :: vs, kek => loadKek (k + 1) vs (setKekWord (Fin.ofNat 8 k) v kek)

/-- A KEK write as the next turn, in IDLE. -/
theorem step_kekWrite {s : State} {k : Fin 8} {v : Word} {l : List Turn} (hp : s.phase = .idle)
    (h : s.schedule = .host (wrTxn (.kek k) v) :: l) :
    step s = .next { s with
      kek := setKekWord k v s.kek
      schedule := l
      busRsp := some { rdata := none, resp := .okay } } :=
  (step_cons h).trans (step_wr_idle (s := { s with schedule := l }) (.kek k) v hp rfl)

/-- A run of KEK writes, in IDLE: one step for each word, and only the KEK is loaded. -/
theorem run_kekWrites (vs : List Word) : ∀ (k : Nat) (v : Word) {s : State}, s.phase = .idle →
    s.schedule = (kekWrites k (v :: vs)).map .host →
    Host.Core.run Sys2Proof.core (vs.length + 1) s = .next { s with
      kek := loadKek k (v :: vs) s.kek
      schedule := []
      busRsp := some { rdata := none, resp := .okay } } := by
  induction vs with
  | nil => exact fun k v s hp h => run_succ 0 (step_kekWrite hp h)
  | cons u us ih => exact fun k v s hp h =>
      (run_succ _ (step_kekWrite hp h)).trans (ih (k + 1) u hp rfl)

/-- The words of a loaded KEK: those before KEKk stay, and from KEKk on the list's words stand. -/
theorem kekWord_loadKek (l : Fin 8) (vs : List Word) : ∀ (k : Nat) (kek : Key), k + vs.length ≤ 8 →
    kekWord l (loadKek k vs kek) =
      if k ≤ l.val then vs.getD (l.val - k) (kekWord l kek) else kekWord l kek := by
  induction vs with
  | nil => simp [loadKek]
  | cons v vs ih =>
    intro k kek hk
    rw [List.length_cons] at hk
    have hval : (Fin.ofNat 8 k).val = k := Nat.mod_eq_of_lt (by omega)
    have hne : l.val ≠ k → l ≠ Fin.ofNat 8 k := fun h e => h (e ▸ hval)
    rw [loadKek, ih (k + 1) _ (by omega)]
    rcases lt_trichotomy l.val k with hlt | heq | hgt
    · rw [if_neg (by omega), if_neg (by omega), kekWord_setKekWord_of_ne (hne hlt.ne)]
    · obtain rfl : l = Fin.ofNat 8 k := Fin.ext (heq.trans hval.symm)
      rw [if_neg (by omega), if_pos heq.ge, heq, Nat.sub_self, List.getD_cons_zero,
        kekWord_setKekWord]
    · rw [if_pos (by omega), if_pos (by omega), kekWord_setKekWord_of_ne (hne hgt.ne'),
        show l.val - k = l.val - (k + 1) + 1 by omega, List.getD_cons_succ]

/-! ### LDKEK: the bytes -/

theorem length_wordsOfBytes (bytes : List Byte) :
    (wordsOfBytes bytes).length = bytes.length / 4 := by
  induction bytes using wordsOfBytes.induct with
  | case1 b0 b1 b2 b3 rest ih =>
    simp only [wordsOfBytes, List.length_cons, ih]
    omega
  | case2 bytes h =>
    have hlt : bytes.length < 4 := by
      match bytes, h with
      | [], _ | [_], _ | [_, _], _ | [_, _, _], _ => simp
      | _ :: _ :: _ :: _ :: _, h => exact absurd rfl (h _ _ _ _ _)
    simp [wordsOfBytes, Nat.div_eq_of_lt hlt]

/-- Byte r of a word put together from four bytes, the first on top (20_memory.md R101). -/
theorem byte_of_append (b0 b1 b2 b3 : Byte) {r : Nat} (hr : r < 4) :
    (b0 ++ b1 ++ b2 ++ b3 : BitVec 32).extractLsb' (24 - 8 * r) 8 = [b0, b1, b2, b3].getD r 0 := by
  apply BitVec.eq_of_getLsbD_eq
  intro i hi
  simp only [BitVec.getLsbD_extractLsb', BitVec.getLsbD_append]
  interval_cases r <;> grind

/-- Byte b of a byte string is byte b mod 4 of its word b / 4 (R163, R101). -/
theorem byte_wordsOfBytes (d : Word) (bytes : List Byte) : ∀ b < 4 * (wordsOfBytes bytes).length,
    ((wordsOfBytes bytes).getD (b / 4) d).extractLsb' (24 - 8 * (b % 4)) 8 = bytes.getD b 0 := by
  induction bytes using wordsOfBytes.induct with
  | case1 b0 b1 b2 b3 rest ih =>
    intro b hb
    rw [wordsOfBytes]
    by_cases hlt : b < 4
    · rw [Nat.div_eq_of_lt hlt, Nat.mod_eq_of_lt hlt, List.getD_cons_zero, byte_of_append _ _ _ _ hlt]
      interval_cases b <;> rfl
    · obtain ⟨c, rfl⟩ := Nat.exists_eq_add_of_le' (Nat.le_of_not_lt hlt)
      rw [wordsOfBytes, List.length_cons] at hb
      rw [Nat.add_div_right c four_pos, Nat.add_mod_right]
      exact ih c (by omega)
  | case2 bytes h => simp [wordsOfBytes]

/-- Byte b of the KEK lies in KEKk with k = b / 4 (R42). -/
theorem byte_kekWord (kek : Key) {b : Nat} (hb : b < 32) :
    (kekWord ⟨b / 4, by omega⟩ kek).extractLsb' (24 - 8 * (b % 4)) 8
      = kek.extractLsb' (248 - 8 * b) 8 := by
  apply BitVec.eq_of_getLsbD_eq
  intro i hi
  simp only [kekWord, kekLow, BitVec.getLsbD_extractLsb']
  rw [show 224 - 32 * (b / 4) + (24 - 8 * (b % 4) + i) = 248 - 8 * b + i by omega,
    decide_eq_true (show 24 - 8 * (b % 4) + i < 32 by omega), Bool.true_and]

/-- The turns of an LDKEK line are the KEK writes of its words, from KEK0 on (R163). -/
theorem scriptTurns_ldkek (bytes : List Byte) :
    scriptTurns [.ldkek bytes] = (kekWrites 0 (wordsOfBytes bytes)).map .host := by
  simp [scriptTurns, ScriptLine.expand]

/-- Settles O15: the eight writes load the eight words of the byte string. -/
theorem ldkekLoadsThirtyTwoBytes : Obligations.LdkekLoadsThirtyTwoBytes := by
  intro s bytes hlen hp hsch
  have hwords : (wordsOfBytes bytes).length = 8 := by rw [length_wordsOfBytes, hlen]
  rw [scriptTurns_ldkek] at hsch
  refine ⟨loadKek 0 (wordsOfBytes bytes) s.kek, ?_, fun b hb => ?_⟩
  · obtain ⟨v, vs, hv⟩ := List.exists_cons_of_length_eq_add_one hwords
    have hvs : vs.length = 7 := by simpa [hv] using hwords
    rw [hv] at hsch ⊢
    simpa only [hvs] using run_kekWrites vs 0 v hp hsch
  · rw [← byte_kekWord _ hb, kekWord_loadKek _ _ _ _ (by omega), if_pos (Nat.zero_le _)]
    exact byte_wordsOfBytes _ _ b (by omega)

/-! ### The default IV -/

theorem effectiveIv_default {s : State} (h : s.iv = Config.defaultIv) (b : Bool) :
    effectiveIv b s = Config.defaultIv := by
  rw [effectiveIv, h, ite_self]

/-- With the default IV in the IV register, acceptance does not depend on IVSEL (R152). -/
theorem accept_default_iv (op : BitVec 4) {s : State} (h : s.iv = Config.defaultIv) :
    accept op true s = accept op false s := by
  simp only [accept, effectiveIv_default h]

/-- Settles O18: in IDLE a command is accepted, and acceptance is where IVSEL is used. -/
theorem defaultIvInRegisterIsIvselZero : Obligations.DefaultIvInRegisterIsIvselZero := by
  intro s hp hiv
  simp only [exec_idle _ hp]
  exact ⟨congrArg _ (accept_default_iv _ hiv), congrArg _ (accept_default_iv _ hiv),
    congrArg _ (accept_default_iv _ hiv)⟩

end Sys2Proof.Machine
end

section
/-! PROOFS. The statements of 40_carousel.md: how many steps and calls a command takes, acceptance, the
controller's steps, completion, and what a step of the machine runs. -/

namespace Sys2Proof.Machine

open Sys2Proof

/-! ### The command's own steps -/

/-- How one of the running command's own steps moves PHASE, and the rounds still to come on the general
path (40_carousel.md R210, R220 to R222). -/
inductive OwnStep (s s' : State) : Prop
  /-- START ends a command that has no rounds (R210 to R214, R320, R325). -/
  | endedAtStart (hp : s.phase = .start) (hlegal : (keyedOp s.opl && s.lengthsLegal) = false)
      (hp' : s'.phase = .idle)
  /-- START enters the rounds (R215). -/
  | begun (hp : s.phase = .start) (hlegal : (keyedOp s.opl && s.lengthsLegal) = true)
      (hp' : s'.phase = .issue) (hnl : s'.nl = s.nl)
      (hrounds : s.nl ≠ 1#6 → roundsLeft s' = lastRound s.nl)
  /-- ISSUE sends the request of a round (R220). -/
  | issued (hp : s.phase = .issue) (hp' : s'.phase = .wait) (hnl : s'.nl = s.nl)
      (hrounds : roundsLeft s' = roundsLeft s) (hpos : s.nl ≠ 1#6 → 1 ≤ roundsLeft s)
  /-- The response ends a round, and another follows (R221). -/
  | roundDone (hp : s.phase = .wait) (hp' : s'.phase = .issue) (hnl : s'.nl = s.nl)
      (hmany : s.nl ≠ 1#6) (hrounds : roundsLeft s = roundsLeft s' + 1)
  /-- The response ends the last round, or the only call of the n = 1 path (R221). -/
  | lastRoundDone (hp : s.phase = .wait) (hp' : s'.phase = .finish)
      (hrounds : s.nl ≠ 1#6 → roundsLeft s = 1)
  /-- FINISH ends the command (R222). -/
  | finished (hp : s.phase = .finish) (hp' : s'.phase = .idle)

/-- An own step lowers the number of steps left by one (R233). -/
theorem OwnStep.stepsLeft_eq {s s' : State} (h : OwnStep s s') : stepsLeft s = stepsLeft s' + 1 := by
  unfold stepsLeft
  cases h with
  | endedAtStart hp hlegal hp' => simp [hp, hlegal, hp']
  | begun hp hlegal hp' hnl hrounds =>
    simp only [hp, hlegal, hp', hnl, if_true]
    split
    · rfl
    next hn => rw [hrounds hn, lastRound]; omega
  | issued hp hp' hnl hrounds => simp only [hp, hp', hnl, hrounds]; split <;> rfl
  | roundDone hp hp' hnl hmany hrounds => simp only [hp, hp', hnl, hmany, if_false]; omega
  | lastRoundDone hp hp' hrounds =>
    simp only [hp, hp']
    split
    · rfl
    next hn => rw [hrounds hn]
  | finished hp hp' => simp [hp, hp']

/-- The rounds begin with all 6·NL of them to come (R215). -/
theorem roundsLeft_runningInit {s : State} (hn : s.nl ≠ 1#6) :
    roundsLeft s.runningInit = lastRound s.nl := by
  have hlast := lastRound_le s.nl
  rw [runningInit_eq]
  unfold roundsLeft
  simp only [seed_opl, seed_nl, seed_t, if_neg hn]
  split
  · rfl
  · rw [BitVec.toNat_ofNat, Nat.mod_eq_of_lt (by omega)]

/-- On the general path a round is to come in ISSUE and in WAIT (10_state.md R61). -/
theorem State.Inv.roundsLeft_pos {s : State} (h : s.Inv) (hp : s.phase = .wait ∨ s.phase = .issue)
    (hn : s.nl ≠ 1#6) : 1 ≤ roundsLeft s := by
  obtain ⟨ht1, ht2⟩ := h.wait_round hp hn
  unfold roundsLeft
  split <;> omega

/-- A round is one fewer to come (R221). -/
theorem State.Inv.roundsLeft_round {s : State} (h : s.Inv) (hp : s.phase = .wait) (hn : s.nl ≠ 1#6)
    (b : Cipher) :
    roundsLeft s = roundsLeft (runningRound s.opl b { s with req := none, aesRsp := none }) + 1 := by
  obtain ⟨ht1, ht2⟩ := h.wait_round (.inl hp) hn
  have hlast := lastRound_le s.nl
  unfold roundsLeft
  simp only [runningRound_opl, runningRound_nl, runningRound_t, if_neg hn]
  split
  · rw [toNat_add_one (by omega)]; omega
  · rw [toNat_sub_one ht1]; omega

/-- The response ends the rounds exactly when one was to come (R253, R283). -/
theorem State.Inv.round_phase {s : State} (h : s.Inv) (hp : s.phase = .wait) (hn : s.nl ≠ 1#6)
    (b : Cipher) :
    (runningRound s.opl b { s with req := none, aesRsp := none }).phase =
      if roundsLeft s = 1 then .finish else .issue := by
  obtain ⟨ht1, ht2⟩ := h.wait_round (.inl hp) hn
  have hlast := lastRound_le s.nl
  have hzero : s.t - 1 = 0#64 ↔ s.t.toNat = 1 := by
    rw [← BitVec.toNat_inj, toNat_sub_one ht1]; simp; omega
  unfold roundsLeft
  simp only [runningRound_phase, toNat_add_one (show s.t.toNat ≤ 378 by omega), hzero]
  by_cases ho : s.opl = 0x1#4
  · simp only [hn, ho, if_true, ne_eq, not_true, true_and, false_and, false_or, or_false]
    congr 1; simp; omega
  · simp [hn, ho]
/-- START is an own step. -/
theorem start_ownStep {s : State} (hp : s.phase = .start) :
    ∃ s', runningStep s = .next s' ∧ OwnStep s s' := by
  rcases legalOp_cases s.opl with hk | ho | hl
  · refine ⟨_, runningStep_start_keyed hp hk, ?_⟩
    rcases startChecked_cases State.runningInit s with ⟨h1, hs⟩ | ⟨-, h1, hs⟩ | ⟨hl, hs⟩ <;> rw [hs]
    · exact .endedAtStart hp (by simp [State.lengthsLegal, h1]) rfl
    · exact .endedAtStart hp (by
        rw [State.lengthsLegal]
        rcases h1 with h1 | h1 <;> simp [h1]) rfl
    · exact .begun hp (by simp [hk, hl]) (runningInit_phase s) (by rw [runningInit_eq]; rfl)
        roundsLeft_runningInit
  · exact ⟨_, runningStep_start_clear hp ho, .endedAtStart hp (by simp [ho, keyedOp]) rfl⟩
  · refine ⟨_, runningStep_start_illegal hp hl, .endedAtStart hp ?_ rfl⟩
    rw [legalOp, Bool.or_eq_false_iff] at hl
    rw [hl.1, Bool.false_and]

theorem runningFinish_phase (s : State) : s.runningFinish.phase = .idle := by
  unfold State.runningFinish wrapFinish unwrapFinish
  split
  · rfl
  · split <;> rfl

/-- The Controller has an own step in START, ISSUE and FINISH (R223). -/
theorem State.Inv.running_ownStep {s : State} (h : s.Inv) (h0 : s.phase ≠ .idle)
    (h1 : s.phase ≠ .wait) : ∃ s', runningStep s = .next s' ∧ OwnStep s s' := by
  rcases busy_phases h0 h1 with hp | hp | hp
  · exact start_ownStep hp
  · obtain ⟨hk, -⟩ := h.rounds_legal (by simp [State.inRounds, hp])
    exact ⟨_, runningStep_issue hp hk, .issued hp rfl rfl rfl (h.roundsLeft_pos (.inr hp))⟩
  · obtain ⟨hk, -⟩ := h.rounds_legal (by simp [State.inRounds, hp])
    exact ⟨_, runningStep_finish hp hk, .finished hp (runningFinish_phase s)⟩

/-- A response in WAIT is an own step, whatever it holds (R221; 20_memory.md R126). -/
theorem State.Inv.response_ownStep {s : State} (h : s.Inv) (hp : s.phase = .wait) (b : Cipher) :
    ∃ s', runningStep { s with aesRsp := some b } = .next s' ∧ OwnStep s s' := by
  obtain ⟨hk, -⟩ := h.rounds_legal (by simp [State.inRounds, hp])
  refine ⟨_, runningStep_wait (s := { s with aesRsp := some b }) hp hk, ?_⟩
  rw [respond_some _ rfl]
  by_cases hn : s.nl = 1#6
  · exact .lastRoundDone hp (by simp [hn]) (absurd hn)
  · have hph := h.round_phase hp hn b
    split at hph
    next hr => exact .lastRoundDone hp hph fun _ => hr
    next hr => exact .roundDone hp hph (runningRound_nl _ _ _) hn (h.roundsLeft_round hp hn b)

/-- An own step of the Controller's turn. -/
theorem State.Inv.controller_ownStep {s : State} (h : s.Inv) (h0 : s.phase ≠ .idle)
    (h1 : s.phase ≠ .wait) : ∃ s', Machine.takeTurn .controller s = .next s' ∧ OwnStep s s' := by
  rw [takeTurn_controller, controllerStep_eq h0 h1]
  exact h.running_ownStep h0 h1

/-- An own step of the core's turn, or of any presented response. -/
theorem State.Inv.core_ownStep {s : State} (h : s.Inv) (hp : s.phase = .wait) {e : Turn}
    (he : e = .aesCore ∨ ∃ b, e = .portResponse b) :
    ∃ s', Machine.takeTurn e s = .next s' ∧ OwnStep s s' := by
  have hr := h.wait_req hp
  rcases he with rfl | ⟨b, rfl⟩
  · rw [takeTurn_aesCore, aesCoreStep_eq hp hr]
    exact h.response_ownStep hp _
  · rw [takeTurn_portResponse, presentResponse_eq b hp hr]
    exact h.response_ownStep hp b

/-- While a command runs, a turn other than reset is an own step, or it changes the interrupt registers
and the response only. -/
theorem State.Inv.takeTurn_ownStep {s : State} (h : s.Inv) (hp : s.phase ≠ .idle) {e : Turn}
    (he : e ≠ .reset) : ∃ s', Machine.takeTurn e s = .next s' ∧ (OwnStep s s' ∨
      ∃ en st r, s' = { s with irqEnable := en, irqStatus := st, busRsp := r }) := by
  rcases takeTurn_cases e s with ⟨x, rfl, hx⟩ | ⟨-, h0, h1, hx⟩ | ⟨r, b, -, hw, -, -, hx⟩ |
    ⟨rfl, -⟩ | ⟨hx, -⟩
  · obtain ⟨en, st, r, hr, -⟩ := hostStep_busy x hp
    exact ⟨_, hx.trans hr, .inr ⟨en, st, r, rfl⟩⟩
  · obtain ⟨s', hs, ho⟩ := h.running_ownStep h0 h1
    exact ⟨s', hx.trans hs, .inl ho⟩
  · obtain ⟨s', hs, ho⟩ := h.response_ownStep hw b
    exact ⟨s', hx.trans hs, .inl ho⟩
  · exact absurd rfl he
  · exact ⟨s, hx, .inr ⟨s.irqEnable, s.irqStatus, s.busRsp, rfl⟩⟩

/-! ### Runs to IDLE -/

/-- With the schedule used up and a live core, a running command takes an own step (R223, R234). -/
theorem State.Inv.ownTurn_ownStep {s : State} (h : s.Inv) (hp : s.phase ≠ .idle)
    (hl : s.schedule = []) (hc : s.coreLive = true) :
    ∃ s', step s = .next s' ∧ OwnStep s s' ∧ s'.Inv ∧ s'.schedule = [] ∧ s'.coreLive = true := by
  obtain ⟨e, he, s', hs, ho⟩ : ∃ e, ownTurn s = some e ∧
      ∃ s', Machine.takeTurn e s = .next s' ∧ OwnStep s s' := by
    by_cases hw : s.phase = .wait
    · exact ⟨.aesCore, by simp [ownTurn, hw, hc], h.core_ownStep hw (.inl rfl)⟩
    · refine ⟨.controller, ?_, h.controller_ownStep hp hw⟩
      rcases busy_phases hp hw with hq | hq | hq <;> simp [ownTurn, hq]
  obtain ⟨hl', hc'⟩ := takeTurn_schedule hs
  exact ⟨s', by rw [step_nil hl, he]; exact hs, ho, h.takeTurn hs, hl'.trans hl, hc'.trans hc⟩

/-- No step is left exactly in IDLE. -/
theorem State.Inv.stepsLeft_eq_zero_iff {s : State} (h : s.Inv) : stepsLeft s = 0 ↔ s.phase = .idle := by
  cases hp : s.phase with
  | wait =>
    have hpos := h.roundsLeft_pos (.inl hp)
    simp only [stepsLeft, hp]
    split
    · simp
    next hn => simpa using Nat.one_le_iff_ne_zero.1 (hpos hn)
  | start | issue => simp only [stepsLeft, hp]; split_ifs <;> simp
  | idle | finish => simp [stepsLeft, hp]

/-- Settles O49: induction on the steps left, each step being an own step. -/
theorem runningCommandEndsOnTime : Obligations.RunningCommandEndsOnTime := by
  intro s
  induction hk : stepsLeft s generalizing s with
  | zero => exact fun h _ _ => ⟨s, firstIdle_idle (h.stepsLeft_eq_zero_iff.1 hk)⟩
  | succ k ih =>
    intro h hl hc
    have hp : s.phase ≠ .idle := fun hp => by simp [h.stepsLeft_eq_zero_iff.2 hp] at hk
    obtain ⟨t, ht, ho, hti, htl, htc⟩ := h.ownTurn_ownStep hp hl hc
    have hkt := ho.stepsLeft_eq
    obtain ⟨s', hs'⟩ := ih t (by omega) hti htl htc
    exact ⟨s', firstIdle_step ht hp hs'⟩

/-- Settles O50: induction on the schedule, at whose end O49 holds; no turn of it adds a step. -/
theorem runningCommandEndsUnderAnySchedule : Obligations.RunningCommandEndsUnderAnySchedule := by
  intro s
  induction hl : s.schedule generalizing s with
  | nil =>
    intro h _ hc
    obtain ⟨s', hs'⟩ := runningCommandEndsOnTime s h hl hc
    exact ⟨_, s', by simp, hs'⟩
  | cons e l ih =>
    intro h hu hc
    by_cases hp : s.phase = .idle
    · exact ⟨0, s, Nat.zero_le _, firstIdle_idle hp⟩
    rw [State.undisturbed, hl, List.all_cons, Bool.and_eq_true] at hu
    have he : e ≠ .reset := by rintro rfl; cases hu.1
    obtain ⟨t, ht, ho⟩ := (h.schedule l).takeTurn_ownStep hp he
    obtain ⟨htl, htc⟩ := takeTurn_schedule ht
    have hle : stepsLeft t ≤ stepsLeft s := by
      rcases ho with ho | ⟨en, st, r, rfl⟩
      · exact Nat.le_of_succ_le ho.stepsLeft_eq.ge
      · exact le_rfl
    obtain ⟨k, s', hk, hs'⟩ := ih t htl ((h.schedule l).takeTurn ht)
      (by rw [State.undisturbed, htl]; exact hu.2) (htc.trans hc)
    exact ⟨k + 1, s', by simp only [List.length_cons]; omega,
      firstIdle_step ((step_cons hl).trans ht) hp hs'⟩
/-! ### Steps and calls counted one by one -/

/-- Settles O47: the Controller's turn and a response are own steps. -/
theorem eachOwnStepCountsOne : Obligations.EachOwnStepCountsOne := by
  intro s s' e h hp hs
  rw [step_givenTurn] at hs
  refine ⟨?_, fun he hw => ?_, ?_, fun _ => (h.takeTurn hs).stepsLeft_eq_zero_iff⟩
  · rintro rfl hw
    obtain ⟨t, ht, ho⟩ := h.controller_ownStep hp hw
    cases ht.symm.trans hs
    exact ho.stepsLeft_eq
  · obtain ⟨t, ht, ho⟩ := h.core_ownStep hw he
    cases ht.symm.trans hs
    exact ho.stepsLeft_eq
  · rintro x rfl
    obtain ⟨en, st, r, hr, -⟩ := hostStep_busy x hp
    cases hr.symm.trans hs
    rfl

/-- An own step lowers the number of calls left by one when it sends a request, and else keeps it
(R232). -/
theorem OwnStep.callsLeft_eq {s s' : State} (h : OwnStep s s') :
    callsLeft s = callsLeft s' + if s'.phase = .wait ∧ s.phase = .issue then 1 else 0 := by
  unfold callsLeft
  cases h with
  | endedAtStart hp hlegal hp' => simp [hp, hlegal, hp']
  | begun hp hlegal hp' hnl hrounds =>
    simp only [hp, hlegal, hp', hnl, if_true]
    split
    · rfl
    next hn => simp [hrounds hn]
  | issued hp hp' hnl hrounds hpos =>
    simp only [hp, hp', hnl, hrounds, and_self, if_true]
    split
    · rfl
    next hn => exact (Nat.sub_add_cancel (hpos hn)).symm
  | roundDone hp hp' hnl hmany hrounds => simp [hp, hp', hnl, hmany, hrounds]
  | lastRoundDone hp hp' hrounds => simp +contextual [hp, hp', hrounds]
  | finished hp hp' => simp [hp, hp']

/-- Settles O48: only an own step changes the count, and ISSUE is the one that sends a request. -/
theorem eachIssueIsOneCall : Obligations.EachIssueIsOneCall := by
  intro s s' e h hp he hs
  obtain ⟨t, ht, ho⟩ := h.takeTurn_ownStep hp he
  cases ht.symm.trans hs
  rcases ho with ho | ⟨en, st, r, rfl⟩
  · rw [ho.callsLeft_eq]
    exact ⟨fun hi => by rw [if_pos hi], fun hi => by rw [if_neg hi, Nat.add_zero]⟩
  · refine ⟨fun ⟨hw, hi⟩ => ?_, fun _ => rfl⟩
    cases hw.symm.trans hi

/-! ### Acceptance -/

/-- Settles O17: in IDLE a command is accepted. -/
theorem commandLatchesItsInputs : Obligations.CommandLatchesItsInputs := by
  intro i s hp
  rw [exec_idle i hp]
  cases i <;> rfl

/-- Settles O16: the write is performed, and a CMD word written in IDLE is accepted. -/
theorem cmdWriteIsAcceptedWhileIdle : Obligations.CmdWriteIsAcceptedWhileIdle := by
  intro s v hp
  rw [step_wr_idle .cmd v hp rfl]
  exact commandWrite_idle v (s := answer none .okay s) hp

/-! ### START -/

/-- WRAP and the unwraps begin with the same checks (R210). -/
theorem exec_start_checked {i : Instr} {s : State} (hp : s.phase = .start) (hi : ∀ b, i ≠ .clear b) :
    ∃ init, exec i s = .next (startChecked init s) := by
  cases i with
  | wrap b => exact ⟨_, execWrap_start b hp⟩
  | unwrap b => exact ⟨_, execUnwrap_start b hp⟩
  | unwrapStrict b => exact ⟨_, execUnwrapStrict_start b hp⟩
  | clear b => exact absurd rfl (hi b)

/-- Settles O19: KEYLEN is checked first (R212). -/
theorem startRefusesBadLengths : Obligations.StartRefusesBadLengths := by
  intro i s hp hi
  obtain ⟨init, hs⟩ := exec_start_checked hp hi
  rw [hs, startChecked]
  refine ⟨fun hk => by rw [if_pos hk]; rfl, fun hk hn => ?_⟩
  rw [if_neg hk, if_pos (by rwa [BitVec.lt_def])]
  rfl

/-- Settles O20: legal lengths pass the checks. -/
theorem startSeedsTheRounds : Obligations.StartSeedsTheRounds := by
  intro b s hp hk hn hle
  have hl : s.lengthsLegal = true := by simp [State.lengthsLegal, hk, hn, BitVec.le_def, hle]
  refine ⟨by rw [execWrap_start b hp, startChecked_legal _ hl]; rfl, ?_⟩
  rintro i (rfl | rfl)
  · rw [execUnwrap_start b hp, startChecked_legal _ hl]; rfl
  · rw [execUnwrapStrict_start b hp, startChecked_legal _ hl]; rfl

/-! ### ISSUE and the response -/

/-- Settles O21: j is `roundIndex`, and the block is the command's cipher input. -/
theorem issueSendsTheRoundsRequest : Obligations.IssueSendsTheRoundsRequest := by
  rintro b s j hp rfl
  refine ⟨execWrap_issue b hp, ?_⟩
  rintro i (rfl | rfl)
  · exact execUnwrap_issue b hp
  · exact execUnwrapStrict_issue b hp

/-- Settles O22: the new buffer is one slot write, at `roundIndex`. -/
theorem wrapRoundUpdatesAAndTheVisitedSlot : Obligations.WrapRoundUpdatesAAndTheVisitedSlot := by
  rintro b s B j hp hB rfl
  refine ⟨Memory.setSlot s.mem s.roundIndex (lsb64 B), Memory.slot_setSlot _ _ _,
    fun x => Memory.readByte_setSlot_of_ne _ _ _ _, ?_⟩
  rw [execWrap_wait b hp, respond_some _ hB]
  by_cases hn : s.nl = 1#6
  · simp [wrapRound, hn, State.roundIndex, State.setW, msb64]
  · simp [wrapRound, hn, State.roundIndex, State.setW, msb64, lastRound]

/-! ### Completion -/

/-- A turn that ends a running command is a reset or a completion (R230). -/
theorem takeTurn_ends {s s' : State} {e : Turn} (hp : s.phase ≠ .idle)
    (hs : takeTurn e s = .next s') (hp' : s'.phase = .idle) :
    (e = .reset ∧ s' = resetBlock s) ∨
    ∃ c v m, s' = complete c v { s with mem := m } ∧ c ≠ .none ∧ (v = true → c = .ok) := by
  rcases takeTurn_cases e s with ⟨x, -, hx⟩ | ⟨-, h0, h1, hx⟩ | ⟨r, b, -, hw, -, -, hx⟩ |
    ⟨rfl, hx⟩ | ⟨hx, -⟩
  · obtain ⟨en, st, r, hr, -⟩ := hostStep_busy x hp
    cases (hx.trans hr).symm.trans hs
    exact absurd hp' hp
  · rcases runningStep_cases h0 h1 (hx.symm.trans hs) with
      ⟨c, v, m, h, hc, hv, -⟩ | ⟨-, -, -, rfl⟩ | ⟨-, -, rfl⟩
    · exact .inr ⟨c, v, m, h, hc, hv⟩
    · cases (runningInit_phase s).symm.trans hp'
    · cases hp'
  · obtain ⟨-, rfl⟩ := runningStep_response hw (hx.symm.trans hs)
    rcases runningRound_phase_ne s.opl b { s with req := none, aesRsp := none } with h | h <;>
      cases h.symm.trans hp'
  · cases hx.symm.trans hs
    exact .inl ⟨rfl, rfl⟩
  · cases hx.symm.trans hs
    exact absurd hp' hp

/-- Settles O39: a reset and a completion both leave the KEK and the working state zero. -/
theorem noKeyOutlivesItsCommand : Obligations.NoKeyOutlivesItsCommand := by
  intro s s' hp hs hp'
  rcases step_cases s with ⟨e, l, hx, -⟩ | ⟨hx, -⟩
  · rcases takeTurn_ends (s := { s with schedule := l }) hp (hx.symm.trans hs) hp' with
      ⟨-, rfl⟩ | ⟨c, v, m, rfl, -⟩
    · exact ⟨rfl, rfl, rfl, rfl, rfl, rfl, rfl, rfl⟩
    · exact ⟨rfl, rfl, rfl, rfl, rfl, rfl, rfl, rfl⟩
  · cases hx.symm.trans hs
    exact absurd hp' hp

/-- Settles O43: the turn is a completion. -/
theorem completionPostsItsEvents : Obligations.CompletionPostsItsEvents := by
  intro s s' e he hp hs hp'
  rcases takeTurn_ends hp hs hp' with ⟨rfl, -⟩ | ⟨c, v, m, rfl, hc, hv⟩
  · exact absurd rfl he
  · simp only [State.irqDone, State.irqErr, State.irqDrop, complete_irqStatus,
      getLsbD_completionIrq]
    exact ⟨by simp, by simp, by simp, hc, hv, rfl, rfl, rfl, rfl⟩

/-! ### The step of the machine -/

theorem abandon_phase (s : State) : s.abandon.phase = .idle := by
  unfold State.abandon
  split
  · rfl
  next hb => simpa [busy_iff] using hb

/-- A CMD word of a command, written in IDLE, runs the command (R200). -/
theorem step_wr_cmd_exec {s : State} {v : Word} {i : Instr} (hp : s.phase = .idle)
    (hi : decode v = .ok i) :
    step (s.givenTurn (.host (wrTxn .cmd v))) = exec i (answer none .okay s) := by
  rw [step_wr_idle .cmd v hp rfl, writeIdle, commandWrite, hi]

/-- The word `withFetchWord` places is the next turn's CMD write. -/
theorem step_withFetchWord (s : State) (nbits w : Nat) : step (s.withFetchWord nbits w) =
    step (s.abandon.givenTurn (.host (wrTxn .cmd (BitVec.ofNat 32 (w % 2 ^ nbits))))) := rfl

theorem decode_of_decodeTableWord {nbits w : Nat} {i : Instr}
    (h : decodeTableWord nbits w = some i) : decode (BitVec.ofNat 32 (w % 2 ^ nbits)) = .ok i := by
  unfold decodeTableWord at h
  split at h
  next j hj => rw [hj, Option.some.inj h]
  next => cases h

/-- Settles O29: a CMD write runs the decoded word, and an own step the command OPL names. -/
theorem stepRunsTheDecodedCommand : Obligations.StepRunsTheDecodedCommand := by
  refine ⟨fun s v i hp hi => step_wr_cmd_exec hp hi, fun s nbits w i hi => ?_,
    fun s i hop hp => ?_, fun s i r hop hp hr => ⟨?_, fun B => ?_⟩⟩
  · rw [step_withFetchWord]
    exact step_wr_cmd_exec (abandon_phase s) (decode_of_decodeTableWord hi)
  · obtain ⟨h0, h1⟩ : s.phase ≠ .idle ∧ s.phase ≠ .wait := by
      rcases hp with h | h | h <;> simp [h]
    rw [step_givenTurn, takeTurn_controller, controllerStep_eq h0 h1, runningStep_eq_exec hop h0]
  · rw [step_givenTurn, takeTurn_aesCore, aesCoreStep_eq hp hr]
    exact runningStep_eq_exec hop (by simp [hp])
  · rw [step_givenTurn, takeTurn_portResponse, presentResponse_eq B hp hr]
    exact runningStep_eq_exec hop (by simp [hp])

end Sys2Proof.Machine
end

section
/-! PROOFS. The statements of 41_wrap.md: WRAP's FINISH, the algorithm it carries out under any
undisturbed schedule, and the whole command from its acceptance. -/

namespace Sys2Proof.Machine

open Sys2Proof

/-! ### FINISH -/

/-- Settles O24: the new buffer is one slot write, at slot 0. -/
theorem wrapFinishWritesTheIntegrityBlock : Obligations.WrapFinishWritesTheIntegrityBlock := by
  intro b s hp
  refine ⟨Memory.setSlot s.mem 0 s.a, Memory.slot_setSlot _ _ _,
    fun x => Memory.readByte_setSlot_of_ne _ _ _ _, ?_⟩
  rw [execWrap_finish b hp]
  rfl

/-- After FINISH W[0] is A, and the other slots are as before (R255). -/
theorem wrapFinish_w (s : State) (j : Nat) : (wrapFinish s).w j = if j = 0 then s.a else s.w j :=
  State.w_setW s 0 j s.a

/-- After FINISH the wrapped key stands in W[0..n] (R255). -/
theorem slots_wrapFinish (s : State) (n : Nat) :
    (wrapFinish s).slots 0 (n + 1) = s.a :: s.slots 1 n := by
  rw [slots_succ, wrapFinish_w, if_pos rfl,
    slots_congr (t := s) fun j hj _ => by rw [wrapFinish_w, if_neg (by omega)]]

/-! ### The steps of a command that passed START, when nothing disturbs it -/

/-- The state after a conforming core's answer to the running command's request (40_carousel.md R221). -/
def State.answered (s : State) : State :=
  runningRound s.opl (coreAnswer s.runningReq) { s with req := none, aesRsp := none }

/-- One undisturbed step of a WRAP or unwrap of legal lengths, short of FINISH (40_carousel.md R215,
R220, R221). -/
inductive RoundsStep (s s' : State) : Prop
  /-- The command does not move (R223; 20_memory.md R106). -/
  | waited (en st : BitVec 3) (r : Option BusRsp) (l : List Turn)
      (hs : s' = { s with irqEnable := en, irqStatus := st, busRsp := r, schedule := l })
  /-- START enters the rounds (R215). -/
  | begun (hp : s.phase = .start) (hs : s' = s.runningInit)
  /-- ISSUE sends the request of a round (R220). -/
  | issued (hp : s.phase = .issue) (hs : s' = issue s.runningDir s.runningInput s)
  /-- A conforming core's answer is applied (R221). -/
  | answered (hp : s.phase = .wait) (hs : s' = s.answered)

/-- `s` is a state of the command that started in `s₀`: its inputs, and the slots above its n, are those
of `s₀`. -/
structure SameCommand (s₀ s : State) : Prop where
  opl : s.opl = s₀.opl
  nl : s.nl = s₀.nl
  kll : s.kll = s₀.kll
  kek : s.kek = s₀.kek
  ive : s.ive = s₀.ive
  nmax : s.nmax = s₀.nmax
  above : ∀ j, s₀.nl.toNat < j → s.w j = s₀.w j

theorem SameCommand.refl (s : State) : SameCommand s s :=
  ⟨rfl, rfl, rfl, rfl, rfl, rfl, fun _ _ => rfl⟩

theorem SameCommand.trans {s t u : State} (h : SameCommand s t) (h' : SameCommand t u) :
    SameCommand s u :=
  ⟨h'.opl.trans h.opl, h'.nl.trans h.nl, h'.kll.trans h.kll, h'.kek.trans h.kek, h'.ive.trans h.ive,
    h'.nmax.trans h.nmax, fun j hj => (h'.above j (by rwa [h.nl])).trans (h.above j hj)⟩

theorem SameCommand.lengthsLegal {s₀ s : State} (h : SameCommand s₀ s) :
    s.lengthsLegal = s₀.lengthsLegal := by
  rw [State.lengthsLegal, State.lengthsLegal, h.kll, h.nl, h.nmax]

/-- Short of FINISH a command keeps its inputs and the slots above its n (10_state.md R51; 20_memory.md
R113). -/
theorem RoundsStep.sameCommand {s s' : State} (h : RoundsStep s s') (hl : s.lengthsLegal = true) :
    SameCommand s s' := by
  cases h with
  | waited en st r l hs => subst hs; exact ⟨rfl, rfl, rfl, rfl, rfl, rfl, fun _ _ => rfl⟩
  | begun hp hs => rw [hs, runningInit_eq]; exact ⟨rfl, rfl, rfl, rfl, rfl, rfl, fun _ _ => rfl⟩
  | issued hp hs => subst hs; exact ⟨rfl, rfl, rfl, rfl, rfl, rfl, fun _ _ => rfl⟩
  | answered hp hs =>
    subst hs
    have hi : State.roundIndex { s with req := none, aesRsp := none } ≤ s.nl.toNat :=
      (roundIndex_bounds (lengthsLegal_iff.1 hl).2.1).2
    unfold State.answered
    refine ⟨by simp, by simp, by simp, by simp, by simp, by simp, fun j hj => ?_⟩
    rw [runningRound_w, if_neg (by omega)]
    rfl

/-- Short of FINISH a command goes on (10_state.md R62). -/
theorem RoundsStep.busy {s s' : State} (h : RoundsStep s s') (hp : s.phase ≠ .idle) :
    s'.phase ≠ .idle := by
  cases h with
  | waited en st r l hs => subst hs; exact hp
  | begun _ hs => rw [hs, runningInit_phase]; decide
  | issued _ hs => subst hs; exact fun hq => nomatch hq
  | answered _ hs =>
    subst hs
    rcases runningRound_phase_ne s.opl (coreAnswer s.runningReq) { s with req := none, aesRsp := none }
      with hq | hq <;> rw [State.answered, hq] <;> decide

/-- An undisturbing turn of a command of legal lengths is a step short of FINISH, or FINISH. -/
theorem State.Inv.takeTurn_rounds {s s' : State} {e : Turn} (h : s.Inv) (hk : keyedOp s.opl = true)
    (hl : s.lengthsLegal = true) (hp : s.phase ≠ .idle) (he : e.undisturbing = true)
    (hs : Machine.takeTurn e s = .next s') :
    RoundsStep s s' ∨ (s.phase = .finish ∧ s' = s.runningFinish) := by
  rcases takeTurn_cases e s with ⟨x, -, hx⟩ | ⟨-, h0, h1, hx⟩ | ⟨r, b, hb, hw, hr, hpr, hx⟩ |
    ⟨rfl, -⟩ | ⟨hx, -⟩
  · obtain ⟨en, st, r, hr, -⟩ := hostStep_busy x hp
    cases (hx.trans hr).symm.trans hs
    exact .inl (.waited en st r s.schedule rfl)
  · rcases busy_phases h0 h1 with hq | hq | hq
    · rw [hx, runningStep_start_keyed hq hk, startChecked_legal _ hl] at hs
      cases hs
      exact .inl (.begun hq rfl)
    · rw [hx, runningStep_issue hq hk] at hs
      cases hs
      exact .inl (.issued hq rfl)
    · rw [hx, runningStep_finish hq hk] at hs
      cases hs
      exact .inr ⟨hq, rfl⟩
  · rcases hb with rfl | rfl
    · obtain rfl : coreAnswer s.runningReq = b := by simpa [presented, h.wait_req hw] using hpr
      exact .inl (.answered hw (runningStep_response hw (hx.symm.trans hs)).2)
    · cases he
  · cases he
  · cases hx.symm.trans hs
    exact .inl (.waited s.irqEnable s.irqStatus s.busRsp s.schedule rfl)

/-- The block's own turns disturb nothing (20_memory.md R124). -/
theorem ownTurn_undisturbing {s : State} {e : Turn} (he : ownTurn s = some e) :
    e.undisturbing = true := by
  cases hp : s.phase with
  | idle => simp [ownTurn, hp] at he
  | wait =>
    obtain ⟨-, rfl⟩ : s.coreLive = true ∧ Turn.aesCore = e := by simpa [ownTurn, hp] using he
    rfl
  | start | issue | finish =>
    obtain rfl : Turn.controller = e := by simpa [ownTurn, hp] using he
    rfl

/-- A step of an undisturbed command of legal lengths: once its turn is off the schedule, a step short
of FINISH, or FINISH. -/
theorem State.Inv.step_rounds {s t : State} (h : s.Inv) (hk : keyedOp s.opl = true)
    (hl : s.lengthsLegal = true) (hp : s.phase ≠ .idle) (hu : s.undisturbed = true)
    (hs : Machine.step s = .next t) : t.undisturbed = true ∧ ∃ l : List Turn,
      RoundsStep { s with schedule := l } t ∨
        (s.phase = .finish ∧ t = State.runningFinish { s with schedule := l }) := by
  rcases step_cases s with ⟨e, l, hx, hl'⟩ | ⟨hx, -⟩
  · have ht := hx.symm.trans hs
    obtain ⟨he, hul⟩ : e.undisturbing = true ∧ l.all Turn.undisturbing = true := by
      rcases hl' with hl' | ⟨-, rfl, ho⟩
      · simpa [State.undisturbed, hl'] using hu
      · exact ⟨ownTurn_undisturbing ho, rfl⟩
    refine ⟨?_, l, (h.schedule l).takeTurn_rounds hk hl hp he ht⟩
    rwa [State.undisturbed, (takeTurn_schedule ht).1]
  · cases hx.symm.trans hs
    exact ⟨hu, s.schedule, .inl (.waited s.irqEnable s.irqStatus s.busRsp s.schedule rfl)⟩

/-- What holds at START and is kept by every undisturbed step short of FINISH holds where the command
finishes. -/
theorem firstIdle_runningFinish {P : State → Prop} {s₀ s' : State} {k : Nat} (hi : s₀.Inv)
    (hp : s₀.phase ≠ .idle) (hk : keyedOp s₀.opl = true) (hl : s₀.lengthsLegal = true)
    (hu : s₀.undisturbed = true) (h0 : P s₀)
    (hstep : ∀ s t, s.Inv → SameCommand s₀ s → P s → RoundsStep s t → P t)
    (hf : firstIdle s₀ k s') :
    ∃ u : State, u.phase = .finish ∧ SameCommand s₀ u ∧ P u ∧ s' = u.runningFinish := by
  refine firstIdle_induct
    (P := fun s => s.Inv ∧ s.undisturbed = true ∧ SameCommand s₀ s ∧ P s)
    (Q := fun s' => ∃ u : State, u.phase = .finish ∧ SameCommand s₀ u ∧ P u ∧ s' = u.runningFinish)
    ?_ k s₀ s' ⟨hi, hu, .refl s₀, h0⟩ hp hf
  rintro s t ⟨h, hu, hc, hP⟩ hp hs
  have hls := hc.lengthsLegal.trans hl
  obtain ⟨htu, l, ht⟩ := h.step_rounds (by rwa [hc.opl]) hls hp hu hs
  have hw : RoundsStep s { s with schedule := l } := .waited s.irqEnable s.irqStatus s.busRsp l rfl
  have hcl := hc.trans (hw.sameCommand hls)
  have hPl := hstep _ _ h hc hP hw
  rcases ht with hr | ⟨hq, rfl⟩
  · exact ⟨fun _ => ⟨stepKeepsTheInvariant s t h hs, htu, hcl.trans (hr.sameCommand hls),
      hstep _ _ (h.schedule l) hcl hPl hr⟩, fun hn => absurd hn (hr.busy hp)⟩
  · exact ⟨fun hn => absurd (runningFinish_phase _) hn,
      fun _ => ⟨{ s with schedule := l }, hq, hcl, hPl, rfl⟩⟩

/-! ### WRAP's rounds -/

/-- Where an undisturbed WRAP that started in `s₀` stands (R250, R252 to R254): A and W[1..n] are the
reference's after the rounds done so far. On the n = 1 path T stays 0, so no round is done. -/
def wrapProgress (s₀ s : State) : Prop :=
  match s.phase with
  | .idle => False
  | .start => s.slots 1 s₀.nl.toNat = s₀.slots 1 s₀.nl.toNat
  | .issue | .wait => (s.a, s.slots 1 s₀.nl.toNat) =
      refWrapRounds (aesEnc s₀.kll s₀.kek) (s.t.toNat - 1) (s₀.ive, s₀.slots 1 s₀.nl.toNat)
  | .finish => s.a :: s.slots 1 s₀.nl.toNat =
      refWrap (aesEnc s₀.kll s₀.kek) s₀.ive (s₀.slots 1 s₀.nl.toNat)

/-- A conforming core encrypts A ‖ R[i] (R251). -/
theorem coreAnswer_wrap {s : State} (ho : s.opl = 0x1#4) :
    coreAnswer s.runningReq = aesEnc s.kll s.kek (s.a ++ s.w s.roundIndex) := by
  simp [coreAnswer, State.runningReq, State.runningDir, State.runningInput, ho, wrapInput]

/-- An answer sets the visited block (R253, R254). -/
theorem slots_answered (s : State) (n : Nat) (hj : 1 ≤ s.roundIndex) : s.answered.slots 1 n =
    (s.slots 1 n).set (s.roundIndex - 1) (lsb64 (coreAnswer s.runningReq)) :=
  slots_runningRound s.opl _ { s with req := none, aesRsp := none } n hj

/-- On the general path the block's round is the reference's (R253). -/
theorem answered_eq_refWrapRound {s : State} (ho : s.opl = 0x1#4) (hl : 1 ≤ s.nl.toNat)
    (hn : s.nl ≠ 1#6) : (s.answered.a, s.answered.slots 1 s.nl.toNat) =
      refWrapRound (aesEnc s.kll s.kek) (s.a, s.slots 1 s.nl.toNat) s.t.toNat := by
  have hj := roundIndex_bounds hl
  have hi : carouselIndex s.t.toNat s.nl.toNat = s.roundIndex := by rw [State.roundIndex, if_neg hn]
  have ha : s.answered.a = msb64 (coreAnswer s.runningReq) ^^^ s.t := by simp [State.answered, ho, hn]
  rw [slots_answered s _ hj.1, ha, coreAnswer_wrap ho]
  simp only [refWrapRound, slots_length, hi, slots_getD s hj.1 hj.2]
  simp [roundBlock]

/-- On the n = 1 path the block's round is the reference's only one (R254, R256). -/
theorem answered_eq_refWrap {s : State} (ho : s.opl = 0x1#4) (hn : s.nl = 1#6) :
    s.answered.a :: s.answered.slots 1 1 = refWrap (aesEnc s.kll s.kek) s.a (s.slots 1 1) := by
  have hi : s.roundIndex = 1 := by rw [State.roundIndex, if_pos hn]
  have ha : s.answered.a = msb64 (coreAnswer s.runningReq) := by simp [State.answered, hn]
  rw [slots_answered s 1 hi.ge, ha, coreAnswer_wrap ho, hi]
  simp [refWrap, State.slots]

/-- In the rounds WRAP stands after T - 1 of them (R252). -/
theorem wrapProgress_rounds {s₀ s : State} (hp : s.phase = .issue ∨ s.phase = .wait) :
    wrapProgress s₀ s ↔ (s.a, s.slots 1 s₀.nl.toNat) =
      refWrapRounds (aesEnc s₀.kll s₀.kek) (s.t.toNat - 1) (s₀.ive, s₀.slots 1 s₀.nl.toNat) := by
  unfold wrapProgress
  rcases hp with hp | hp <;> rw [hp]

/-- At FINISH A and W[1..n] are the wrapped key (R257). -/
theorem wrapProgress_finish {s₀ s : State} (hp : s.phase = .finish) :
    wrapProgress s₀ s ↔ s.a :: s.slots 1 s₀.nl.toNat =
      refWrap (aesEnc s₀.kll s₀.kek) s₀.ive (s₀.slots 1 s₀.nl.toNat) := by
  unfold wrapProgress
  rw [hp]

/-- Off the n = 1 path the reference makes all 6 n rounds (R250). -/
theorem refWrap_general (enc : Cipher → Cipher) (iv : Block) {p : List Block} (hp : p.length ≠ 1) :
    refWrap enc iv p =
      (refWrapRounds enc (6 * p.length) (iv, p)).1 :: (refWrapRounds enc (6 * p.length) (iv, p)).2 :=
  if_neg hp

/-- The n = 1 path's one call ends WRAP where the reference ends (R254). -/
theorem wrapProgress_one {s₀ s : State} (h : s.Inv) (hc : SameCommand s₀ s) (ho : s.opl = 0x1#4)
    (hp : s.phase = .wait) (hn : s.nl = 1#6) (hw : wrapProgress s₀ s) :
    wrapProgress s₀ s.answered := by
  have ht := h.one_round (by simp [State.inRounds, hp]) hn
  have hn₀ : s₀.nl.toNat = 1 := by rw [← hc.nl, hn]; rfl
  rw [wrapProgress_rounds (.inr hp), ht, hn₀] at hw
  obtain ⟨ha, hr⟩ := Prod.mk.inj hw
  rw [wrapProgress_finish (by simp [State.answered, hn]), hn₀, answered_eq_refWrap ho hn, ha, hr,
    hc.kll, hc.kek]

/-- A round of the general path brings WRAP one round further in the reference (R253). -/
theorem wrapProgress_many {s₀ s : State} (h : s.Inv) (hc : SameCommand s₀ s) (ho : s.opl = 0x1#4)
    (hp : s.phase = .wait) (hn : s.nl ≠ 1#6) (hw : wrapProgress s₀ s) :
    wrapProgress s₀ s.answered := by
  obtain ⟨-, hl⟩ := h.rounds_legal (by simp [State.inRounds, hp])
  obtain ⟨ht1, ht2⟩ := h.wait_round (.inl hp) hn
  have hph : s.answered.phase = _ := h.round_phase hp hn (coreAnswer s.runningReq)
  have hrt : s.answered.t.toNat = s.t.toNat + 1 := by
    have := lastRound_le s.nl
    simp only [State.answered, runningRound_t, if_neg hn, if_pos ho]
    exact toNat_add_one (by omega)
  have hdone : (s.answered.a, s.answered.slots 1 s₀.nl.toNat) =
      refWrapRounds (aesEnc s₀.kll s₀.kek) s.t.toNat (s₀.ive, s₀.slots 1 s₀.nl.toNat) := by
    rw [wrapProgress_rounds (.inr hp)] at hw
    obtain ⟨t, ht⟩ := Nat.exists_eq_add_of_le' ht1
    rw [ht, Nat.add_sub_cancel] at hw
    rw [ht, refWrapRounds, ← hw, ← ht, ← hc.nl, ← hc.kll, ← hc.kek]
    exact answered_eq_refWrapRound ho (lengthsLegal_iff.1 hl).2.1 hn
  split at hph
  next hlast =>
    have ht : s.t.toNat = 6 * s₀.nl.toNat := by
      rw [roundsLeft, if_pos ho, hc.nl, lastRound] at hlast
      omega
    have hlen : (s₀.slots 1 s₀.nl.toNat).length ≠ 1 := by rw [slots_length, ← hc.nl]; bv_omega
    rw [wrapProgress_finish hph, refWrap_general _ _ hlen, slots_length, ← ht, ← hdone]
  next =>
    rw [wrapProgress_rounds (.inl hph), hrt]
    exact hdone

/-- Every undisturbed step of WRAP short of FINISH follows the reference. -/
theorem wrapProgress_step {s₀ s s' : State} (h : s.Inv) (hc : SameCommand s₀ s)
    (ho : s.opl = 0x1#4) (hw : wrapProgress s₀ s) (hs : RoundsStep s s') : wrapProgress s₀ s' := by
  cases hs with
  | waited en st r l hs => subst hs; exact hw
  | begun hp hs =>
    subst hs
    rw [wrapProgress, hp] at hw
    rw [wrapProgress_rounds (.inl (runningInit_phase s)), runningInit_eq, ← hw, ← hc.ive]
    simp only [seed_t, seed_a, if_pos ho]
    split <;> rfl
  | issued hp hs =>
    subst hs
    rw [wrapProgress_rounds (.inl hp)] at hw
    rw [wrapProgress_rounds (.inr rfl)]
    exact hw
  | answered hp hs =>
    subst hs
    by_cases hn : s.nl = 1#6
    · exact wrapProgress_one h hc ho hp hn hw
    · exact wrapProgress_many h hc ho hp hn hw

/-- Settles O52: at FINISH the block has followed the reference to its end. -/
theorem wrapComputesTheReference : Obligations.WrapComputesTheReference := by
  intro s s' k h hp ho hl hu hf
  obtain ⟨u, hup, hc, hw, rfl⟩ := firstIdle_runningFinish (P := wrapProgress s) h (by simp [hp])
    (by simp [keyedOp, ho]) hl hu (by rw [wrapProgress, hp])
    (fun t t' hi hc => wrapProgress_step hi hc (hc.opl.trans ho)) hf
  rw [wrapProgress_finish hup] at hw
  rw [State.runningFinish, if_pos (hc.opl.trans ho)]
  refine ⟨(slots_wrapFinish u _).trans hw, fun j hj _ => ?_, rfl, rfl, ?_, rfl⟩
  · rw [wrapFinish_w, if_neg (by omega)]
    exact hc.above j hj
  · exact (getLsbD_completionIrq _ _ _).trans (by simp)

/-! ### WRAP from its acceptance -/

/-- Settles O57: the accepted command meets O52's hypotheses, and ends on time by O49. -/
theorem wrapRunsFromAcceptanceToResult : Obligations.WrapRunsFromAcceptanceToResult := by
  intro b s h hp hl hc hk hn hle
  have hi := h.accept hp 0x1#4 b
  have hlegal : (accept 0x1#4 b s).lengthsLegal = true := by
    simp [State.lengthsLegal, hk, hn, BitVec.le_def, hle]
  have hsteps : stepsLeft (accept 0x1#4 b s) = if s.n = 1#6 then 4 else 12 * s.n.toNat + 2 := by
    simp only [stepsLeft, accept_phase, hlegal]
    rfl
  obtain ⟨s', hf⟩ := runningCommandEndsOnTime _ hi hl hc
  obtain ⟨hw, -, hcode, hvalid, -⟩ := wrapComputesTheReference _ s' _ hi rfl rfl hlegal
    (by simp [State.undisturbed, hl]) hf
  refine ⟨_, s', exec_idle (.wrap b) hp, hsteps ▸ hf, hw, ?_⟩
  simp [statusWord, State.busy, hf.2.1, hcode, hvalid, ResultCode.bits]

end Sys2Proof.Machine
end

section
/-! PROOFS. The statements of 42_unwrap.md: the unwraps' round and FINISH, UNWRAP_STRICT beside UNWRAP,
the algorithm they carry out under any undisturbed schedule, the round trip with WRAP, and whole commands
from their acceptance. -/

namespace Sys2Proof.Machine

open Sys2Proof

/-! ### The round and FINISH -/

/-- Settles O23: the new buffer is one slot write, at `roundIndex`. -/
theorem unwrapRoundUpdatesAAndTheVisitedSlot : Obligations.UnwrapRoundUpdatesAAndTheVisitedSlot := by
  rintro b i s B j hi hp hB rfl
  refine ⟨Memory.setSlot s.mem s.roundIndex (lsb64 B), Memory.slot_setSlot _ _ _,
    fun x => Memory.readByte_setSlot_of_ne _ _ _ _, ?_⟩
  have hs : exec i s = .next (unwrapRound B { s with req := none, aesRsp := none }) := by
    rw [← respond_some unwrapRound hB]
    rcases hi with rfl | rfl
    · exact execUnwrap_wait b hp
    · exact execUnwrapStrict_wait b hp
  rw [hs]
  by_cases hn : s.nl = 1#6
  · simp [unwrapRound, hn, State.roundIndex, State.setW, msb64]
  · simp [unwrapRound, hn, State.roundIndex, State.setW, msb64]

/-- FINISH accepts an A equal to IVE (R285). -/
theorem unwrapFinish_of_eq (c : ResultCode) {s : State} (h : s.a = s.ive) :
    unwrapFinish c s = complete .ok true (s.setW 0 s.a) := if_pos h

/-- FINISH scrubs on any other A (R285, R286). -/
theorem unwrapFinish_of_ne (c : ResultCode) {s : State} (h : s.a ≠ s.ive) :
    unwrapFinish c s = complete c false s.scrub := if_neg h

/-- Settles O25: the new buffer is one slot write, at slot 0. -/
theorem unwrapFinishAcceptsEqualIv : Obligations.UnwrapFinishAcceptsEqualIv := by
  intro b i s hi hp ha
  refine ⟨Memory.setSlot s.mem 0 s.a, (Memory.slot_setSlot _ _ _).trans ha,
    fun x => Memory.readByte_setSlot_of_ne _ _ _ _, ?_⟩
  rcases hi with rfl | rfl
  · rw [execUnwrap_finish b hp, unwrapFinish_of_eq _ ha]; rfl
  · rw [execUnwrapStrict_finish b hp, unwrapFinish_of_eq _ ha]; rfl

/-- Scrubbing leaves every byte outside the buffer alone (R286). -/
theorem Memory.readByte_scrub_of_outside (nmax : Nat) (m : Memory) {x : Nat}
    (h : x < slotOffset 0 ∨ slotOffset (nmax + 1) ≤ x) :
    Memory.readByte (Memory.scrub nmax m) x = Memory.readByte m x := by
  have hout : ¬ inBuffer nmax x = true := by
    simp only [inBuffer, Bool.and_eq_true, decide_eq_true_eq]
    omega
  rw [Memory.readByte_scrub, if_neg hout]

/-- Settles O26: the new buffer is the scrubbed one, for both commands. -/
theorem unwrapFinishScrubsOnMismatch : Obligations.UnwrapFinishScrubsOnMismatch := by
  intro b s hp ha
  refine ⟨Memory.scrub s.nmax.toNat s.mem, fun j hj => Memory.slot_scrub _ _ _ hj,
    fun x hx => Memory.readByte_scrub_of_outside _ _ hx, ?_, ?_⟩
  · rw [execUnwrap_finish b hp, unwrapFinish_of_ne _ ha]; rfl
  · rw [execUnwrapStrict_finish b hp, unwrapFinish_of_ne _ ha]; rfl

/-! ### UNWRAP_STRICT beside UNWRAP -/

/-- The same state, with an UNWRAP_STRICT running (10_state.md R63). -/
def State.asStrict (s : State) : State := { s with opl := 0x3#4 }

@[simp] theorem asStrict_nmax (s : State) : s.asStrict.nmax = s.nmax := rfl
@[simp] theorem asStrict_nl (s : State) : s.asStrict.nl = s.nl := rfl
@[simp] theorem asStrict_kll (s : State) : s.asStrict.kll = s.kll := rfl
@[simp] theorem asStrict_aesRsp (s : State) : s.asStrict.aesRsp = s.aesRsp := rfl

/-- Where UNWRAP_STRICT's step leads when UNWRAP's leads to `s` (R291): apart only in OPL while it runs,
and only in CODE and ERR after a failed check. -/
def State.strictCounterpart (s : State) : State :=
  if s.phase ≠ .idle then s.asStrict
  else if s.code = .absent then
    { s with code := .unwrapFailed, irqStatus := s.irqStatus ||| 0b010#3 }
  else s

theorem strictCounterpart_busy {s : State} (h : s.phase ≠ .idle) : s.strictCounterpart = s.asStrict :=
  if_pos h

theorem strictCounterpart_absent {s : State} (h : s.phase = .idle) (hc : s.code = .absent) :
    s.strictCounterpart = { s with code := .unwrapFailed, irqStatus := s.irqStatus ||| 0b010#3 } := by
  rw [State.strictCounterpart, if_neg (not_not.2 h), if_pos hc]

theorem strictCounterpart_ended {s : State} (h : s.phase = .idle) (hc : s.code ≠ .absent) :
    s.strictCounterpart = s := by
  rw [State.strictCounterpart, if_neg (not_not.2 h), if_neg hc]

/-- No register reads OPL. -/
theorem busRead_asStrict (addr : Offset) (width : Width) (s : State) :
    busRead addr width s.asStrict = (busRead addr width s).asStrict := by
  have hreg : s.asStrict.regAt addr = s.regAt addr := rfl
  have hread : ∀ r, readReg s.asStrict r = readReg s r := fun r => by cases r <;> rfl
  unfold busRead
  rw [hreg]
  split
  · cases s.regAt addr with
    | none => rfl
    | some r => simp only [hread]; rfl
  · rfl

/-- While a command runs, no write looks at OPL: only CMD's would. -/
theorem writeReg_asStrict (r : Reg) (v : Word) {s s' : State} (hp : s.phase ≠ .idle)
    (hs : writeReg r v s = .next s') : writeReg r v s.asStrict = .next s'.asStrict := by
  have hb : s.busy = true := (busy_iff s).2 hp
  have hb' : s.asStrict.busy = true := hb
  rw [writeReg_eq, hb] at hs
  rw [writeReg_eq, hb']
  cases r <;> cases hs <;> rfl

/-- While a command runs, a transaction does not depend on which command it is (20_memory.md R106). -/
theorem hostStep_asStrict (x : BusTxn) {s s' : State} (hp : s.phase ≠ .idle)
    (hs : hostStep x s = .next s') : hostStep x s.asStrict = .next s'.asStrict := by
  cases x with
  | rd addr width =>
    cases hs
    exact congrArg _ (busRead_asStrict addr width s)
  | wr addr width v =>
    rcases wr_error_or_named addr width v s.nmax with hr | ⟨r, hw, hx⟩
    · cases (hr s rfl).symm.trans hs
      exact hr s.asStrict rfl
    · rw [hx, hostStep_wr_named s v hw] at hs
      rw [hx, hostStep_wr_named s.asStrict v hw]
      exact writeReg_asStrict r v (s := answer none .okay s) hp hs

/-- The START checks and `init()` are the same (R290). -/
theorem startChecked_asStrict (s : State) : startChecked unwrapInit s.asStrict =
    (startChecked unwrapInit s).strictCounterpart := by
  unfold startChecked
  rw [asStrict_kll, asStrict_nl, asStrict_nmax]
  split
  · rfl
  · split <;> rfl

/-- A round does not look at OPL (R283, R284). -/
theorem unwrapRound_asStrict (b : Cipher) (s : State) :
    unwrapRound b s.asStrict = (unwrapRound b s).asStrict := by
  unfold unwrapRound
  rw [asStrict_nl]
  split <;> rfl

/-- A round does not end the command (R283, R284). -/
theorem unwrapRound_busy (b : Cipher) (s : State) : (unwrapRound b s).phase ≠ .idle := by
  have h : unwrapRound b s = runningRound 0x2#4 b s := rfl
  rcases runningRound_phase_ne 0x2#4 b s with hq | hq <;> rw [h, hq] <;> decide

/-- The response step is the same (R291). -/
theorem respond_asStrict {s : State} (hp : s.phase = .wait) : respond unwrapRound s.asStrict =
    (respond unwrapRound s).strictCounterpart := by
  unfold respond
  rw [asStrict_aesRsp]
  cases s.aesRsp with
  | none => rw [strictCounterpart_busy (by simp [hp])]
  | some b =>
    rw [strictCounterpart_busy (unwrapRound_busy b _)]
    exact unwrapRound_asStrict b { s with req := none, aesRsp := none }

/-- FINISH differs in the code of a failed check (R290). -/
theorem unwrapFinish_asStrict (s : State) : unwrapFinish .unwrapFailed s.asStrict =
    (unwrapFinish .absent s).strictCounterpart := by
  by_cases ha : s.a = s.ive
  · rw [unwrapFinish_of_eq _ ha, unwrapFinish_of_eq (s := s.asStrict) _ ha]; rfl
  · rw [unwrapFinish_of_ne _ ha, unwrapFinish_of_ne (s := s.asStrict) _ ha,
      strictCounterpart_absent rfl rfl]
    simp only [complete, completionIrq, ResultCode.isError, BitVec.or_assoc]
    rfl

/-- A step of the running UNWRAP_STRICT is UNWRAP's, up to the code of a failed check (R291). -/
theorem runningStep_asStrict {s s' : State} (hp : s.phase ≠ .idle) (ho : s.opl = 0x2#4)
    (hs : runningStep s = .next s') : runningStep s.asStrict = .next s'.strictCounterpart := by
  rw [runningStep_eq_exec (i := .unwrap false) ho.symm hp] at hs
  rw [runningStep_eq_exec (i := .unwrapStrict false) (s := s.asStrict) rfl hp]
  cases hq : s.phase with
  | idle => exact absurd hq hp
  | start =>
    cases (execUnwrap_start false hq).symm.trans hs
    rw [execUnwrapStrict_start false (s := s.asStrict) hq, startChecked_asStrict]
  | issue =>
    cases (execUnwrap_issue false hq).symm.trans hs
    exact execUnwrapStrict_issue false (s := s.asStrict) hq
  | wait =>
    cases (execUnwrap_wait false hq).symm.trans hs
    rw [execUnwrapStrict_wait false (s := s.asStrict) hq, respond_asStrict hq]
  | finish =>
    cases (execUnwrap_finish false hq).symm.trans hs
    rw [execUnwrapStrict_finish false (s := s.asStrict) hq, unwrapFinish_asStrict]

/-- A presented response is taken, or ignored, by both alike (20_memory.md R123, R126). -/
theorem presentResponse_asStrict (b : Cipher) {s s' : State} (hp : s.phase ≠ .idle)
    (ho : s.opl = 0x2#4) (hs : presentResponse b s = .next s') :
    presentResponse b s.asStrict = .next s'.strictCounterpart := by
  by_cases h : s.phase ≠ .wait ∨ s.req = none
  · cases (presentResponse_none b h).symm.trans hs
    rw [presentResponse_none b (s := s.asStrict) h, strictCounterpart_busy hp]
  · rw [not_or, not_not] at h
    obtain ⟨hw, hr⟩ := h
    obtain ⟨r, hr⟩ := Option.ne_none_iff_exists'.1 hr
    rw [presentResponse_eq b hw hr] at hs
    rw [presentResponse_eq b (s := s.asStrict) hw hr]
    exact runningStep_asStrict (s := { s with aesRsp := some b }) hp ho hs

/-- The core presents its answer to the outstanding request (R221). -/
theorem aesCoreStep_of_req {s : State} {r : AesReq} (h : s.req = some r) :
    aesCoreStep s = presentResponse (coreAnswer r) s := by
  rw [aesCoreStep, h]

/-- Every turn but reset does to UNWRAP_STRICT what it does to UNWRAP, up to the code of a failed check
(R291). -/
theorem takeTurn_asStrict {s s' : State} {e : Turn} (hp : s.phase ≠ .idle) (ho : s.opl = 0x2#4)
    (he : e ≠ .reset) (hs : takeTurn e s = .next s') :
    takeTurn e s.asStrict = .next s'.strictCounterpart := by
  cases e with
  | host x =>
    have hb : s'.phase ≠ .idle := by
      obtain ⟨en, st, r, hr, -⟩ := hostStep_busy x hp
      cases hr.symm.trans hs
      exact hp
    rw [strictCounterpart_busy hb]
    exact hostStep_asStrict x hp hs
  | controller =>
    by_cases hw : s.phase = .wait
    · cases (controllerStep_none (.inr hw)).symm.trans hs
      rw [strictCounterpart_busy hp]
      exact controllerStep_none (s := s.asStrict) (.inr hw)
    · rw [takeTurn_controller, controllerStep_eq hp hw] at hs
      rw [takeTurn_controller, controllerStep_eq (s := s.asStrict) hp hw]
      exact runningStep_asStrict hp ho hs
  | aesCore =>
    cases hr : s.req with
    | none =>
      cases (aesCoreStep_none (.inr hr)).symm.trans hs
      rw [strictCounterpart_busy hp]
      exact aesCoreStep_none (s := s.asStrict) (.inr hr)
    | some r =>
      rw [takeTurn_aesCore, aesCoreStep_of_req hr] at hs
      rw [takeTurn_aesCore, aesCoreStep_of_req (s := s.asStrict) hr]
      exact presentResponse_asStrict _ hp ho hs
  | portResponse b => exact presentResponse_asStrict b hp ho hs
  | reset => exact absurd rfl he

/-- Settles O45: the strict turn ends in the counterpart of UNWRAP's. -/
theorem strictUnwrapDiffersOnlyInTheFailureCode :
    Obligations.StrictUnwrapDiffersOnlyInTheFailureCode := by
  intro s s' e hp ho he hs
  have hstrict : step (s.asStrict.givenTurn e) = .next s'.strictCounterpart :=
    takeTurn_asStrict hp ho he hs
  refine ⟨fun hb => ?_, fun hi => ⟨fun hc => ?_, fun hc => ?_⟩⟩
  · rwa [strictCounterpart_busy hb] at hstrict
  · rwa [strictCounterpart_absent hi hc] at hstrict
  · rwa [strictCounterpart_ended hi hc] at hstrict

/-! ### The algorithm's round trip -/

/-- An unwrap round undoes the wrap round of the same number (R292). -/
theorem refUnwrapRound_refWrapRound {enc dec : Cipher → Cipher} (hdec : ∀ x, dec (enc x) = x)
    (x : Block × List Block) (t : Nat) (hx : 1 ≤ x.2.length) :
    refUnwrapRound dec (refWrapRound enc x t) t = x := by
  obtain ⟨a, r⟩ := x
  obtain ⟨hi, hle⟩ := carouselIndex_bounds t hx
  have hlt : carouselIndex t r.length - 1 < r.length := by dsimp only at hi hle; omega
  simp [refUnwrapRound, refWrapRound, hlt, hdec]

/-- The unwrap rounds k, .., 1 undo the wrap rounds 1, .., k (R292). -/
theorem refUnwrapRounds_refWrapRounds {enc dec : Cipher → Cipher} (hdec : ∀ x, dec (enc x) = x)
    (k : Nat) (x : Block × List Block) (hx : 1 ≤ x.2.length) :
    refUnwrapRounds dec k (refWrapRounds enc k x) = x := by
  induction k with
  | zero => rfl
  | succ k ih =>
    rw [refWrapRounds, refUnwrapRounds,
      refUnwrapRound_refWrapRound hdec _ _ (by rwa [refWrapRounds_length]), ih]

/-- Settles O54: on the n = 1 path one call undoes the other, else the rounds undo the rounds. -/
theorem referenceRoundTrip : Obligations.ReferenceRoundTrip := by
  intro enc dec iv p hdec hp
  obtain ⟨c0, c, hw, hl, hc⟩ : ∃ c0 c, refWrap enc iv p = c0 :: c ∧ c.length = p.length ∧
      refUnwrapCandidate dec c0 c = (iv, p) := by
    by_cases hn : p.length = 1
    · obtain ⟨p₁, rfl⟩ := List.length_eq_one_iff.1 hn
      exact ⟨_, _, rfl, rfl, by simp [refUnwrapCandidate, hdec]⟩
    · have hlen := refWrapRounds_length enc (6 * p.length) (iv, p)
      refine ⟨_, _, refWrap_general enc iv hn, hlen, ?_⟩
      rw [refUnwrapCandidate, if_neg (by rwa [hlen]), hlen]
      exact refUnwrapRounds_refWrapRounds hdec _ _ (List.length_pos_iff.2 hp)
  exact ⟨c0, c, hw, hl, hc, by rw [refUnwrap, hc]; exact if_pos rfl⟩

/-! ### The unwraps' rounds -/

/-- The final A and candidate key that an unwrap standing in `s` comes to when nothing disturbs it (R280,
R282): the source's, over the rounds still to come. -/
def State.unwrapResult (s : State) : Block × List Block :=
  match s.phase with
  | .start => refUnwrapCandidate (aesDec s.kll s.kek) (s.w 0) (s.slots 1 s.nl.toNat)
  | .issue | .wait =>
    if s.nl = 1#6 then refUnwrapCandidate (aesDec s.kll s.kek) s.a (s.slots 1 s.nl.toNat)
    else refUnwrapRounds (aesDec s.kll s.kek) s.t.toNat (s.a, s.slots 1 s.nl.toNat)
  | .finish | .idle => (s.a, s.slots 1 s.nl.toNat)

theorem unwrapResult_start {s : State} (hp : s.phase = .start) : s.unwrapResult =
    refUnwrapCandidate (aesDec s.kll s.kek) (s.w 0) (s.slots 1 s.nl.toNat) := by
  rw [State.unwrapResult, hp]

theorem unwrapResult_rounds {s : State} (hp : s.phase = .issue ∨ s.phase = .wait) :
    s.unwrapResult =
      if s.nl = 1#6 then refUnwrapCandidate (aesDec s.kll s.kek) s.a (s.slots 1 s.nl.toNat)
      else refUnwrapRounds (aesDec s.kll s.kek) s.t.toNat (s.a, s.slots 1 s.nl.toNat) := by
  rcases hp with hp | hp <;> rw [State.unwrapResult, hp]

theorem unwrapResult_finish {s : State} (hp : s.phase = .finish) :
    s.unwrapResult = (s.a, s.slots 1 s.nl.toNat) := by
  rw [State.unwrapResult, hp]

/-- Off the n = 1 path the reference makes all 6 n rounds (R280). -/
theorem refUnwrapCandidate_general (dec : Cipher → Cipher) (c0 : Block) {c : List Block}
    (hc : c.length ≠ 1) :
    refUnwrapCandidate dec c0 c = refUnwrapRounds dec (6 * c.length) (c0, c) := if_neg hc

/-- A conforming core decrypts the unwraps' cipher input (R281). -/
theorem coreAnswer_unwrap {s : State} (ho : s.opl ≠ 0x1#4) :
    coreAnswer s.runningReq = aesDec s.kll s.kek (unwrapInput s) := by
  simp [coreAnswer, State.runningReq, State.runningDir, State.runningInput, ho]

theorem answered_unwrap_a {s : State} (ho : s.opl ≠ 0x1#4) :
    s.answered.a = msb64 (aesDec s.kll s.kek (unwrapInput s)) := by
  simp [State.answered, ho, coreAnswer_unwrap ho]

/-- On the general path the block's round is the reference's (R283). -/
theorem answered_eq_refUnwrapRound {s : State} (ho : s.opl ≠ 0x1#4) (hl : 1 ≤ s.nl.toNat)
    (hn : s.nl ≠ 1#6) : (s.answered.a, s.answered.slots 1 s.nl.toNat) =
      refUnwrapRound (aesDec s.kll s.kek) (s.a, s.slots 1 s.nl.toNat) s.t.toNat := by
  have hj := roundIndex_bounds hl
  have hi : carouselIndex s.t.toNat s.nl.toNat = s.roundIndex := by rw [State.roundIndex, if_neg hn]
  rw [slots_answered s _ hj.1, answered_unwrap_a ho, coreAnswer_unwrap ho, unwrapInput, if_neg hn]
  simp only [refUnwrapRound, slots_length, hi, slots_getD s hj.1 hj.2]
  simp [roundBlock]

/-- On the n = 1 path the block's one call is the reference's (R284, R287). -/
theorem answered_eq_refUnwrapCandidate {s : State} (ho : s.opl ≠ 0x1#4) (hn : s.nl = 1#6) :
    (s.answered.a, s.answered.slots 1 1) =
      refUnwrapCandidate (aesDec s.kll s.kek) s.a (s.slots 1 1) := by
  have hi : s.roundIndex = 1 := by rw [State.roundIndex, if_pos hn]
  rw [slots_answered s 1 hi.ge, answered_unwrap_a ho, coreAnswer_unwrap ho, unwrapInput, if_pos hn, hi]
  simp [refUnwrapCandidate, State.slots]

/-- The answer on the n = 1 path, the only one, gives the result (R284). -/
theorem unwrapResult_answered_one {s : State} (ho : s.opl ≠ 0x1#4) (hp : s.phase = .wait)
    (hn : s.nl = 1#6) : s.answered.unwrapResult = s.unwrapResult := by
  have hnl : s.answered.nl = s.nl := runningRound_nl _ _ _
  rw [unwrapResult_rounds (.inr hp), if_pos hn, unwrapResult_finish (by simp [State.answered, hn]),
    hnl, hn]
  exact answered_eq_refUnwrapCandidate ho hn

/-- An answer on the general path leaves one round fewer to the same result (R282, R283). -/
theorem unwrapResult_answered_many {s : State} (h : s.Inv) (ho : s.opl ≠ 0x1#4)
    (hp : s.phase = .wait) (hn : s.nl ≠ 1#6) : s.answered.unwrapResult = s.unwrapResult := by
  obtain ⟨-, hl⟩ := h.rounds_legal (by simp [State.inRounds, hp])
  obtain ⟨ht, -⟩ := h.wait_round (.inl hp) hn
  have hnl : s.answered.nl = s.nl := runningRound_nl _ _ _
  have hkll : s.answered.kll = s.kll := runningRound_kll _ _ _
  have hkek : s.answered.kek = s.kek := runningRound_kek _ _ _
  have hrt : s.answered.t.toNat = s.t.toNat - 1 := by
    simp only [State.answered, runningRound_t, if_neg hn, if_neg ho]
    exact toNat_sub_one ht
  have hdone := answered_eq_refUnwrapRound ho (lengthsLegal_iff.1 hl).2.1 hn
  have hrest : s.unwrapResult = refUnwrapRounds (aesDec s.kll s.kek) (s.t.toNat - 1)
      (s.answered.a, s.answered.slots 1 s.nl.toNat) := by
    rw [unwrapResult_rounds (.inr hp), if_neg hn, hdone]
    obtain ⟨k, hk⟩ := Nat.exists_eq_add_of_le' ht
    rw [hk, refUnwrapRounds, Nat.add_sub_cancel]
  have hph : s.answered.phase = _ := h.round_phase hp hn (coreAnswer s.runningReq)
  rw [roundsLeft, if_neg ho] at hph
  split at hph
  next hlast => rw [unwrapResult_finish hph, hrest, hnl, hlast]; rfl
  next => rw [unwrapResult_rounds (.inl hph), hrest, hnl, if_neg hn, hkll, hkek, hrt]

/-- `init()` sets out for the source's result (R215, R280). -/
theorem unwrapResult_unwrapInit {s : State} (hp : s.phase = .start) :
    (unwrapInit s).unwrapResult = s.unwrapResult := by
  have hlast := lastRound_le s.nl
  have ht : s.nl ≠ 1#6 → (unwrapInit s).t.toNat = 6 * s.nl.toNat := fun hn => by
    rw [unwrapInit, seed_t, if_neg hn, BitVec.toNat_ofNat, Nat.mod_eq_of_lt (by omega), lastRound]
  rw [unwrapResult_start hp, unwrapResult_rounds (.inl rfl)]
  by_cases hn : s.nl = 1#6
  · exact if_pos hn
  · have hlen : (s.slots 1 s.nl.toNat).length ≠ 1 := by rw [slots_length]; bv_omega
    rw [refUnwrapCandidate_general _ (s.w 0) hlen, slots_length, ht hn]
    exact if_neg hn

/-- Every undisturbed step of an unwrap short of FINISH keeps the result it comes to. -/
theorem unwrapResult_step {s s' : State} (h : s.Inv) (ho : s.opl ≠ 0x1#4) (hs : RoundsStep s s') :
    s'.unwrapResult = s.unwrapResult := by
  cases hs with
  | waited en st r l hs => subst hs; rfl
  | begun hp hs =>
    rw [hs, State.runningInit, if_neg ho]
    exact unwrapResult_unwrapInit hp
  | issued hp hs =>
    subst hs
    rw [unwrapResult_rounds (.inl hp), unwrapResult_rounds (.inr rfl)]
    rfl
  | answered hp hs =>
    subst hs
    by_cases hn : s.nl = 1#6
    · exact unwrapResult_answered_one ho hp hn
    · exact unwrapResult_answered_many h ho hp hn

/-- FINISH of an unwrap is the integrity check, with the code of its opcode (R285, R290). -/
theorem runningFinish_unwrap {s : State} (ho : s.opl ≠ 0x1#4) :
    s.runningFinish = unwrapFinish (failCode s.opl) s := if_neg ho

/-- Settles O53: at FINISH A and W[1..n] are the source's result, and the check is the source's. -/
theorem unwrapComputesTheReference : Obligations.UnwrapComputesTheReference := by
  intro s s' k h hp ho hl hu hf
  have ho1 : s.opl ≠ 0x1#4 := by rcases ho with ho | ho <;> simp [ho]
  obtain ⟨u, hup, hc, hw, rfl⟩ := firstIdle_runningFinish
    (P := fun t => t.unwrapResult = s.unwrapResult) h (by simp [hp])
    (by rcases ho with ho | ho <;> simp [keyedOp, ho]) hl hu rfl
    (fun t t' hi hc hw hs => (unwrapResult_step hi (by rwa [hc.opl]) hs).trans hw) hf
  rw [unwrapResult_finish hup, unwrapResult_start hp, hc.nl] at hw
  rw [refUnwrap, ← hw, runningFinish_unwrap (by rwa [hc.opl]), hc.opl, ← hc.ive, ← hc.nmax]
  by_cases ha : u.a = u.ive
  · have hW : ∀ j, (complete .ok true (u.setW 0 u.a)).w j = if j = 0 then u.a else u.w j :=
      fun j => State.w_setW u 0 j u.a
    simp only [unwrapFinish_of_eq _ ha, if_pos ha]
    refine ⟨slots_congr fun j hj _ => ?_, (hW 0).trans ha, rfl, rfl, fun j hj _ => ?_⟩
    · rw [hW, if_neg (by omega)]
    · rw [hW, if_neg (by omega), hc.above j hj]
  · simp only [unwrapFinish_of_ne _ ha, if_neg ha]
    refine ⟨fun j hj => State.w_scrub u j hj, rfl, fun h2 => by rw [h2]; rfl, fun h3 => ?_⟩
    rw [h3]
    exact ⟨rfl, (getLsbD_completionIrq _ _ _).trans (by simp [failCode, ResultCode.isError])⟩

/-! ### The block's round trip -/

/-- `u` is to unwrap what the WRAP of `s` left in `s'`, with the same n and used key bytes, whatever its IV
(R292, R293). -/
structure UnwrapsResult (s s' u : State) : Prop where
  kll : u.kll = s.kll
  nl : u.nl = s.nl
  used : usedKey u.kll u.kek = usedKey s.kll s.kek
  slots : u.slots 0 (s.nl.toNat + 1) = s'.slots 0 (s.nl.toNat + 1)

/-- The rounds over a WRAP's result come back to the WRAP's IV and input (R292). -/
theorem refUnwrap_of_wrapped {s s' u : State} {k : Nat} (h : s.Inv) (hp : s.phase = .start)
    (ho : s.opl = 0x1#4) (hl : s.lengthsLegal = true) (hu : s.undisturbed = true)
    (hf : firstIdle s k s') (hr : UnwrapsResult s s' u) (iv : Block) :
    refUnwrap (aesDec u.kll u.kek) iv (u.w 0) (u.slots 1 u.nl.toNat) =
      if s.ive = iv then some (s.slots 1 s.nl.toNat) else none := by
  obtain ⟨hk, hn, -⟩ := lengthsLegal_iff.1 hl
  obtain ⟨hkll, hnl, hused, hslots⟩ := hr
  obtain ⟨hw, -⟩ := wrapComputesTheReference s s' k h hp ho hl hu hf
  have hne : s.slots 1 s.nl.toNat ≠ [] := List.ne_nil_of_length_pos (by rwa [slots_length])
  obtain ⟨c0, c, hwrap, -, hcand, -⟩ := referenceRoundTrip (aesEnc s.kll s.kek) (aesDec s.kll s.kek)
    s.ive _ (aesDec_aesEnc hk s.kek) hne
  rw [hw, hwrap, slots_succ] at hslots
  obtain ⟨h0, h1⟩ := List.cons.inj hslots
  rw [hkll] at hused
  rw [refUnwrap, hkll, hnl, (aes_usedKey hk hused).2, h0, h1, hcand]

/-- Settles O55: with the WRAP's IV the source's unwrap returns the WRAP's input. -/
theorem blockRoundTrip : Obligations.BlockRoundTrip := by
  intro s s' u u' k l h hp ho hl hu hf h' hp' ho' hl' hu' hf' hkll hnl hive hused hslots
  have href := unwrapComputesTheReference u u' l h' hp' ho' hl' hu' hf'
  rw [refUnwrap_of_wrapped h hp ho hl hu hf ⟨hkll, hnl, hused, hslots⟩, if_pos hive.symm, hnl] at href
  obtain ⟨hkey, -, hcode, hvalid, -⟩ := href
  exact ⟨hcode, hvalid, hkey⟩

/-- Settles O56: with another IV the source's unwrap returns none. -/
theorem ivMismatchIsDetected : Obligations.IvMismatchIsDetected := by
  intro s s' u u' k l h hp ho hl hu hf h' hp' ho' hl' hu' hf' hkll hnl hive hused hslots
  have href := unwrapComputesTheReference u u' l h' hp' ho' hl' hu' hf'
  rw [refUnwrap_of_wrapped h hp ho hl hu hf ⟨hkll, hnl, hused, hslots⟩, if_neg hive.symm] at href
  obtain ⟨hzero, hvalid, habsent, hfailed⟩ := href
  exact ⟨habsent, fun h3 => (hfailed h3).1, hvalid, hzero⟩

/-! ### The unwraps from their acceptance -/

/-- An accepted key command of legal lengths ends after the steps of R233. -/
theorem State.Inv.accepted_firstIdle {s : State} (h : s.Inv) (hp : s.phase = .idle)
    (hl : s.schedule = []) (hc : s.coreLive = true) {op : BitVec 4} (hk : keyedOp op = true) (b : Bool)
    (hlegal : (Machine.accept op b s).lengthsLegal = true) :
    ∃ s', firstIdle (Machine.accept op b s) (if s.n = 1#6 then 4 else 12 * s.n.toNat + 2) s' := by
  have hsteps : stepsLeft (Machine.accept op b s) =
      if s.n = 1#6 then 4 else 12 * s.n.toNat + 2 := by
    simp only [stepsLeft, accept_phase, accept_opl, hk, hlegal]
    rfl
  rw [← hsteps]
  exact runningCommandEndsOnTime _ (h.accept hp op b) hl hc

/-- Settles O58: the accepted command ends on time, where O53 says. -/
theorem unwrapRunsFromAcceptanceToResult : Obligations.UnwrapRunsFromAcceptanceToResult := by
  intro b i s hi h hp hl hc hk hn hle
  obtain ⟨hop, hiv, hiu⟩ : (i.opcode = 0x2#4 ∨ i.opcode = 0x3#4) ∧ i.ivsel = b ∧
      (i = .unwrap b ↔ i.opcode = 0x2#4) := by
    rcases hi with rfl | rfl <;> simp [Instr.opcode, Instr.ivsel]
  have hlegal : (accept i.opcode b s).lengthsLegal = true := by
    simp [State.lengthsLegal, hk, hn, BitVec.le_def, hle]
  obtain ⟨s', hf⟩ := h.accepted_firstIdle hp hl hc
    (by rcases hop with hop | hop <;> simp [keyedOp, hop]) b hlegal
  have href := unwrapComputesTheReference _ s' _ (h.accept hp i.opcode b) rfl hop hlegal
    (by simp [State.undisturbed, hl]) hf
  refine ⟨_, s', hiv ▸ exec_idle i hp, hf, ?_⟩
  have hbusy : s'.busy = false := by simp [State.busy, hf.2.1]
  generalize hres : refUnwrap _ _ _ _ = o at href
  rw [show refUnwrap (aesDec s.keylen s.kek) (if b then s.iv else 0xA6A6A6A6A6A6A6A6#64) (s.w 0)
    (s.slots 1 s.n.toNat) = o from hres]
  cases o with
  | some p =>
    obtain ⟨hkey, -, hcode, hvalid, -⟩ := href
    exact ⟨hkey, by simp [statusWord, hbusy, hcode, hvalid, ResultCode.bits]⟩
  | none =>
    obtain ⟨hzero, hvalid, habsent, hfailed⟩ := href
    refine ⟨hzero, ?_⟩
    rcases hop with hop | hop
    · rw [if_pos (hiu.2 hop)]
      simp [statusWord, hbusy, habsent hop, hvalid, ResultCode.bits]
    · rw [if_neg (by simp [hiu, hop])]
      simp [statusWord, hbusy, (hfailed hop).1, hvalid, ResultCode.bits]

end Sys2Proof.Machine
end

section
/-! PROOFS. The statements of 43_maintenance.md: CLEAR's START and its whole run, and the START of an
illegal opcode. -/

namespace Sys2Proof.Machine

open Sys2Proof

/-! ### START of CLEAR and of an illegal opcode -/

/-- Settles O27: the new buffer is the scrubbed one. -/
theorem clearZeroesTheBuffer : Obligations.ClearZeroesTheBuffer := by
  intro b s hp
  refine ⟨Memory.scrub s.nmax.toNat s.mem, fun j hj => Memory.slot_scrub _ _ _ hj,
    fun x hx => Memory.readByte_scrub_of_outside _ _ hx, ?_⟩
  rw [execClear_start b hp]
  rfl

/-- The Controller's turn at START is the running command's START step (40_carousel.md R210). -/
theorem controllerStep_start {s : State} (hp : s.phase = .start) :
    controllerStep s = runningStep s := controllerStep_eq (by simp [hp]) (by simp [hp])

/-- Settles O28: the Controller's turn is the illegal command's START step. -/
theorem illegalOpcodeCompletesAtStart : Obligations.IllegalOpcodeCompletesAtStart := by
  intro s hp ho
  have hl : legalOp s.opl = false := (legalOp_eq_false_iff _).2 ho
  rw [step_givenTurn, takeTurn_controller, controllerStep_start hp, runningStep_start_illegal hp hl]
  rfl

/-! ### CLEAR from its acceptance -/

/-- With nothing listed outside the buffer, scrubbing leaves nothing (10_state.md R50). -/
theorem Memory.scrub_eq_nil {nmax : Nat} {m : Memory} (h : ∀ c ∈ m, inBuffer nmax c.1 = true) :
    Memory.scrub nmax m = [] :=
  List.filter_eq_nil_iff.2 fun c hc => by simp [h c hc]

/-- In IDLE the working state is zero already: completing there only posts the outcome and zeroes the
KEK (40_carousel.md R230). -/
theorem State.Inv.complete_of_idle {s : State} (h : s.Inv) (hp : s.phase = .idle) (c : ResultCode)
    (v : Bool) : Machine.complete c v s =
      { s with code := c, valid := v, irqStatus := completionIrq c s.irqStatus, kek := 0 } := by
  obtain ⟨ha, ht, hopl, hnl, hkll, hive⟩ := h.idle_zero hp
  have hreq : s.req = none := h.no_req (by simp [hp])
  simp only [Machine.complete, ha, ht, hopl, hnl, hkll, hive, hreq, hp]

/-- CLEAR's completion zeroes all that acceptance latched (40_carousel.md R201, R230). -/
theorem clearStart_accept (op : BitVec 4) (b : Bool) (s : State) :
    clearStart (accept op b s) = clearStart s := rfl

/-- What CLEAR makes of an IDLE state (R320). -/
theorem State.Inv.clearStart_of_idle {s : State} (h : s.Inv) (hp : s.phase = .idle) :
    clearStart s = { s with
      mem := [], code := .ok, valid := false, irqStatus := s.irqStatus ||| 0b001#3, kek := 0 } := by
  calc clearStart s
    _ = { Machine.complete .ok false s with mem := Memory.scrub s.nmax.toNat s.mem } := rfl
    _ = _ := by rw [h.complete_of_idle hp, Memory.scrub_eq_nil h.mem_inside]; rfl

/-- An accepted CLEAR is over after its START step (R321; 40_carousel.md R233). -/
theorem accepted_clear_firstIdle (b : Bool) {s : State} (hl : s.schedule = []) :
    firstIdle (accept 0x4#4 b s) 1 (clearStart s) := by
  have hs : step (accept 0x4#4 b s) = .next (clearStart s) := by
    rw [step_nil (s := accept 0x4#4 b s) hl, ← clearStart_accept 0x4#4 b s]
    exact (controllerStep_start rfl).trans
      (runningStep_start_clear (s := accept 0x4#4 b s) rfl rfl)
  exact firstIdle_step hs (by simp) (firstIdle_idle rfl)

/-- Settles O59: CLEAR is accepted, and its START step ends it. -/
theorem clearRunsFromAcceptanceToResult : Obligations.ClearRunsFromAcceptanceToResult := by
  intro b s h hp hl
  refine ⟨_, _, exec_idle (.clear b) hp, accepted_clear_firstIdle b hl, h.clearStart_of_idle hp, ?_⟩
  simp [statusWord, State.busy, clearStart, ResultCode.bits]

end Sys2Proof.Machine
end

section
/-! PROOFS. The statement of 60_exceptions.md: no step from a good state stops the machine. -/

namespace Sys2Proof.Machine

open Sys2Proof

/-! ### Every turn is answered -/

/-- Whatever turn comes, the block answers a next state: the running command's step and the response
would stop only past START with no key command latched, which the invariant rules out
(40_carousel.md R210; 60_exceptions.md R400). -/
theorem State.Inv.takeTurn_safeAnswer {s : State} (h : s.Inv) (e : Turn) :
    safeAnswer (Machine.takeTurn e s) := by
  rcases takeTurn_cases e s with ⟨x, -, hx⟩ | ⟨-, h0, h1, hx⟩ | ⟨r, b, -, hw, -, -, hx⟩ |
    ⟨-, hx⟩ | ⟨hx, -⟩ <;> rw [hx]
  · exact hostStep_next x s
  · obtain ⟨s', hs, -⟩ := h.running_ownStep h0 h1
    exact ⟨s', hs⟩
  · obtain ⟨s', hs, -⟩ := h.response_ownStep hw b
    exact ⟨s', hs⟩
  · exact ⟨_, rfl⟩
  · exact ⟨s, rfl⟩

/-- Settles O35: a step takes one turn, at the state with the rest of the schedule, or changes
nothing. -/
theorem stepNeverStops : Obligations.StepNeverStops := by
  intro s h
  rcases step_cases s with ⟨e, l, hx, -⟩ | ⟨hx, -⟩ <;> rw [hx]
  · exact (h.schedule l).takeTurn_safeAnswer e
  · exact ⟨s, rfl⟩

end Sys2Proof.Machine
end

section
/-! PROOFS. The statement of 70_reset_and_hazards.md: reset from any state. -/

namespace Sys2Proof.Machine

open Sys2Proof

/-- Settles O32: the reset turn answers `resetBlock s` without reading the PHASE, and `resetBlock s`
is the reset record at the N_MAX, schedule and core of `s`. -/
theorem resetStopsAnyCommand : Obligations.ResetStopsAnyCommand := fun s =>
  calc step (s.givenTurn .reset)
    _ = takeTurn .reset s := step_givenTurn s .reset
    _ = .next (resetBlock s) := takeTurn_reset s
    _ = _ := rfl

end Sys2Proof.Machine
end
